-- ==== Sys2Proof/Word.lean ====
section
/-! DEFINITION. The word types of the DS4 report codec. R10: a byte has 8 bits, bit 0 is the least
significant. R13, R14: a 16-bit field is one 16-bit pattern, read as unsigned (`toNat`) or as two's complement
(`toInt`) by the rule that uses it. R36: a calibrated output is one binary64 bit pattern. -/

namespace Sys2Proof

/-- A byte of a report (R10). -/
abbrev Byte := BitVec 8

/-- A 16-bit field: `timestamp` (unsigned), the six samples and the seventeen constants (signed, R14). -/
abbrev Half := BitVec 16

/-- One IEEE 754 binary64 bit pattern (R36, R203). -/
abbrev F64 := BitVec 64

end Sys2Proof
end

