-- ==== Sys2Proof/Config.lean ====
section
/-! DEFINITION. The parameters of the block (R7), each under the spec's own name. The two OPEN ones,
`TOUCH_VARIANT` and `RX_CAP`, are constants without a body: no proof can see which value they have, so every
claim holds for every value the spec allows. `fdivSpecial` is the one free value of the arithmetic. -/

namespace Sys2Proof

/-- The two touch tables of R84 and R85 (R9, D6). -/
inductive TouchVariant where
  /-- Finger records start at relative offset 33 (R84). -/
  | A
  /-- Finger records start at relative offset 34 (R85). -/
  | B
  deriving DecidableEq, Repr, Inhabited

namespace Config

/-- R7, R8: buffer index of relative offset 0 of the input report, fixed at the USB value. -/
def BASE : Nat := 1

/-- R7: required byte 0 of an input report. -/
def IN_TAG : Byte := 0x01

/-- R7: smallest accepted input report. -/
def IN_MIN_LEN : Nat := 64

/-- R7: required byte 0 of a calibration record. -/
def CAL_TAG : Byte := 0x02

/-- R7: smallest accepted calibration record. -/
def CAL_MIN_LEN : Nat := 37

/-- R7: byte 0 of every output report. -/
def OUT_TAG : Byte := 0x05

/-- R7, R89: byte 1 of every output report. -/
def OUT_FLAGS1 : Byte := 0x07

/-- R7, R89: byte 2 of every output report. -/
def OUT_FLAGS2 : Byte := 0x04

/-- R7: length of every output report, and of `TXBUF`. -/
def OUT_LEN : Nat := 32

/-- R12, R210: `F64(16.4)`, the nominal gyro divisor. -/
def GYRO_NOMINAL_DIV : F64 := 0x4030666666666666

/-- R210: 8192.0, the nominal accelerometer divisor. -/
def ACCEL_NOMINAL_DIV : F64 := 0x40C0000000000000

/-- R210: 2.0, the divisor of the half range (R198). -/
def TWO : F64 := 0x4000000000000000

/-- `TOUCH_VARIANT` (R7, R9, D6): OPEN. Free constant, log entry 4. -/
opaque touchVariant : TouchVariant

/-- How far `RX_CAP` exceeds its least value 64 (R7, D26): OPEN. Free constant, log entry 5. -/
opaque rxExtra : Nat

/-- `RX_CAP` (R7): capacity of `RXBUF`, at least 64. -/
def rxCap : Nat := rxExtra + 64

/-- The free value of a binary64 division whose operands the spec states no result for: a NaN, an infinity or a
zero divisor. R206: no command divides so. Log entry 10. -/
opaque fdivSpecial : F64 → F64 → F64

end Config

end Sys2Proof
end

