-- ==== Sys2Proof/Syntax.lean ====
section
/-! DEFINITION. Commands and operations. R70: a command is (`op`, `len`, `arg[0..6]`). R71: the five operations,
one constructor of `Instr` per row of the operation table, each with the parts of the command it uses.
R94, R95: the assembler lines as data. -/

namespace Sys2Proof

/-- R70: a command as the host issues it. Every command has all three parts. -/
@[ext]
structure Command where
  /-- The byte that selects the operation (R71). -/
  op  : Byte
  /-- How many bytes of `RXBUF`, from index 0, the host declares valid. -/
  len : Nat
  /-- `arg[0]` to `arg[6]`. -/
  arg : Vector Byte 7
  deriving DecidableEq, Repr

/-- R71: the operations of the block, with the operands each one uses. -/
inductive Instr where
  /-- 0x01: decode the input report `RXBUF[0 .. len-1]` into `IS` (R110). -/
  | decin (len : Nat)
  /-- 0x02: encode `OS` into `TXBUF` (R153). -/
  | encout
  /-- 0x03: decode the calibration record `RXBUF[0 .. len-1]` into `CAL` (R170). -/
  | deccal (len : Nat)
  /-- 0x04: compute `CI` from the samples of `IS` and from `CAL` (R190). -/
  | calib
  /-- 0x05: load `OS` from `arg[0]` to `arg[6]` (R150). -/
  | ldout (heavy light ledR ledG ledB flashOn flashOff : Byte)
  deriving DecidableEq, Repr

/-- R94: one line of a command list, in the spec's notation. `encode` is the one pseudo-instruction (R95). -/
inductive AsmLine where
  | decin (bytes : List Byte)
  | encout
  | deccal (bytes : List Byte)
  | calib
  | ldout (heavy light ledR ledG ledB flashOn flashOff : Byte)
  | encode (heavy light ledR ledG ledB flashOn flashOff : Byte)
  deriving DecidableEq, Repr

end Sys2Proof
end

