-- ==== Sys2Proof/WellFormed.lean ====
section
/-! DEFINITION. Which operations are well formed. R70: `len` is a number from 0 to `RX_CAP`. The operations that
do not use `len` have nothing to check; every `arg` byte is legal (R150). -/

namespace Sys2Proof

/-- R70, R110, R170: the `len` operand lies in 0 to `RX_CAP`. -/
def Instr.wellFormed : Instr → Bool
  | .decin len => decide (len ≤ Config.rxCap)
  | .encout => true
  | .deccal len => decide (len ≤ Config.rxCap)
  | .calib => true
  | .ldout _ _ _ _ _ _ _ => true

end Sys2Proof
end

