-- ==== Sys2Proof/Decode.lean ====
section
/-! DEFINITION. Decoding a command, total on every command and on every number read as one, and encoding.
R71: the operation is the whole value of `op`. R72: the bytes of `RXBUF` play no part in it. -/

namespace Sys2Proof

/-- Why a command selects no well-formed operation. -/
inductive DecodeError where
  /-- R73: `op` is 0x00 or 0x06 to 0xFF. -/
  | illegalOp (op : Byte)
  /-- R70: the `len` of an operation that uses it exceeds `RX_CAP` (log entry 8). -/
  | lenOutOfRange (len : Nat)
  deriving DecidableEq, Repr

/-- The `len` operand of DECIN and DECCAL (R110, R170: "`len` (0 to `RX_CAP`)"). -/
def withLen (len : Nat) (mk : Nat → Instr) : Except DecodeError Instr :=
  if len ≤ Config.rxCap then .ok (mk len) else .error (.lenOutOfRange len)

/-- R71, R73, R234: an illegal `op` is found before anything else is looked at. The parts an operation does not
use are ignored (R70). -/
def decode (c : Command) : Except DecodeError Instr :=
  match c.op.toNat with
  | 0x01 => withLen c.len .decin
  | 0x02 => .ok .encout
  | 0x03 => withLen c.len .deccal
  | 0x04 => .ok .calib
  | 0x05 => .ok (.ldout c.arg[0] c.arg[1] c.arg[2] c.arg[3] c.arg[4] c.arg[5] c.arg[6])
  | _ => .error (.illegalOp c.op)

/-- Seven zero `arg` bytes, for the operations that ignore `arg` (log entry 19). -/
def noArg : Vector Byte 7 := #v[0, 0, 0, 0, 0, 0, 0]

/-- The command of an operation, from the table of R71 and the operand order of R150. The parts an operation
ignores are 0 (log entry 19). -/
def encode : Instr → Command
  | .decin len => { op := 0x01, len := len, arg := noArg }
  | .encout => { op := 0x02, len := 0, arg := noArg }
  | .deccal len => { op := 0x03, len := len, arg := noArg }
  | .calib => { op := 0x04, len := 0, arg := noArg }
  | .ldout heavy light ledR ledG ledB flashOn flashOff =>
    { op := 0x05, len := 0, arg := #v[heavy, light, ledR, ledG, ledB, flashOn, flashOff] }

/-- A command as one number: `op` is bits 7..0 (the operation table's numbering), `arg[i]` is the byte at bit
`8 * (i + 1)`, and `len`, which has no width of its own, is everything from bit 64 up (log entry 3). -/
def Command.toWord (c : Command) : Nat :=
  c.op.toNat + 2 ^ 8 * c.arg[0].toNat + 2 ^ 16 * c.arg[1].toNat + 2 ^ 24 * c.arg[2].toNat
    + 2 ^ 32 * c.arg[3].toNat + 2 ^ 40 * c.arg[4].toNat + 2 ^ 48 * c.arg[5].toNat
    + 2 ^ 56 * c.arg[6].toNat + 2 ^ 64 * c.len

/-- The byte of `w` at bit `lo`. -/
def byteAt (w lo : Nat) : Byte := BitVec.ofNat 8 (w / 2 ^ lo)

/-- The command a number is read as: total, the inverse of `Command.toWord`. -/
def Command.ofWord (w : Nat) : Command :=
  { op := byteAt w 0
    len := w / 2 ^ 64
    arg := #v[byteAt w 8, byteAt w 16, byteAt w 24, byteAt w 32, byteAt w 40, byteAt w 48, byteAt w 56] }

/-- Decoding a number: total. -/
def decodeWord (w : Nat) : Except DecodeError Instr := decode (Command.ofWord w)

/-- The number of an operation. -/
def encodeWord (i : Instr) : Nat := (encode i).toWord

/-- The command of an operation-table row: its `nbits` bits are those of `w`, every bit above them is 0. -/
def commandOfTableWord (nbits w : Nat) : Command := Command.ofWord (w % 2 ^ nbits)

/-- The operation this decoder reads from a row of the operation table. -/
def decodeTableWord (nbits w : Nat) : Option Instr :=
  match decode (commandOfTableWord nbits w) with
  | .ok i => some i
  | .error _ => none

end Sys2Proof
end

