-- ==== Sys2Proof/Machine/State.lean ====
section
/-! DEFINITION. The state of the block (R20 to R49): the registers `IS`, `CAL`, `OS`, `CI`, the transmit buffer
`TXBUF` and the host's receive buffer `RXBUF`, under the spec's names. Two fields are the model's own, not the
block's: `pending`, what the host does next, and `statuses`, what the host has been answered (log entries 1, 2). -/

namespace Sys2Proof.Machine

/-- R27: the D-pad direction held by `IS.dpad`. The host reads it as the number `DPad.code`. -/
inductive DPad where
  | north | ne | east | se | south | sw | west | nw | neutral
  deriving DecidableEq, Repr

/-- R28: one touch contact. -/
@[ext]
structure TouchFinger where
  active : Bool
  id     : BitVec 7
  x      : BitVec 12
  y      : BitVec 12
  deriving DecidableEq, Repr

/-- R24: the register `IS`, 43 fields. The six samples are 16-bit two's complement patterns (R14). -/
@[ext]
structure InputState where
  ls_x           : Byte
  ls_y           : Byte
  rs_x           : Byte
  rs_y           : Byte
  dpad           : DPad
  square         : Bool
  cross          : Bool
  circle         : Bool
  triangle       : Bool
  l1             : Bool
  r1             : Bool
  l2             : Bool
  r2             : Bool
  share          : Bool
  options        : Bool
  l3             : Bool
  r3             : Bool
  ps             : Bool
  tpad           : Bool
  l2_analog      : Byte
  r2_analog      : Byte
  timestamp      : Half
  frame          : BitVec 6
  gyro_pitch     : Half
  gyro_yaw       : Half
  gyro_roll      : Half
  accel_x        : Half
  accel_y        : Half
  accel_z        : Half
  bat_level      : BitVec 4
  bat_cable      : Bool
  bat_headphones : Bool
  bat_mic        : Bool
  tp_count       : Byte
  tp_counter     : Byte
  f0             : TouchFinger
  f1             : TouchFinger
  deriving DecidableEq, Repr

/-- R31: the register `CAL`: seventeen signed 16-bit constants and the block's one flag, `valid` (R43). -/
@[ext]
structure CalibrationData where
  gyro_pitch_bias  : Half
  gyro_yaw_bias    : Half
  gyro_roll_bias   : Half
  gyro_pitch_plus  : Half
  gyro_pitch_minus : Half
  gyro_yaw_plus    : Half
  gyro_yaw_minus   : Half
  gyro_roll_plus   : Half
  gyro_roll_minus  : Half
  gyro_speed_plus  : Half
  gyro_speed_minus : Half
  accel_x_plus     : Half
  accel_x_minus    : Half
  accel_y_plus     : Half
  accel_y_minus    : Half
  accel_z_plus     : Half
  accel_z_minus    : Half
  valid            : Bool
  deriving DecidableEq, Repr

/-- R34: the register `OS`. -/
@[ext]
structure OutputState where
  heavy     : Byte
  light     : Byte
  led_r     : Byte
  led_g     : Byte
  led_b     : Byte
  flash_on  : Byte
  flash_off : Byte
  deriving DecidableEq, Repr

/-- R36: the register `CI`: six binary64 patterns, degrees per second and g. -/
@[ext]
structure CalibratedIMU where
  gyro_pitch : F64
  gyro_yaw   : F64
  gyro_roll  : F64
  accel_x    : F64
  accel_y    : F64
  accel_z    : F64
  deriving DecidableEq, Repr

/-- A byte space (R50, R51): its cells that hold a value, by rising index. An index that is not listed holds no
value (R40, R41; log entries 6, 7). -/
@[ext]
structure Memory where
  cells : List Host.Cell
  deriving DecidableEq, Repr

/-- The canonical form: indices strictly rising, so that equal memories are equal data. -/
abbrev Memory.wf (m : Memory) : Prop := (m.cells.map Prod.fst).Pairwise (· < ·)

/-- A byte space that holds no value anywhere. -/
def Memory.empty : Memory := { cells := [] }

/-- R74: the status of a command. -/
inductive Status where
  /-- 0: the operation succeeded and wrote its outputs. -/
  | ok
  /-- 1: "buffer smaller than the format requires". -/
  | tooShort
  /-- 2: "first byte does not match the expected tag for this report type". -/
  | unexpectedReportId
  /-- 3: the `op` byte selects no operation. -/
  | illegalOp
  deriving DecidableEq, Repr

/-- What the host does between or with commands (R6, R41, R260; log entry 1). -/
inductive HostAction where
  /-- Place `bytes` in `RXBUF` from index `start` up (R41, R50). -/
  | loadRx (start : Nat) (bytes : List Byte)
  /-- Issue a command (R60, R70). -/
  | command (c : Command)
  /-- The reset event (R260). -/
  | reset
  deriving DecidableEq, Repr

/-- The state. `IS`, `CAL`, `OS`, `CI`, `TXBUF` are the block's (R20), `RXBUF` is the host's buffer the block
reads (R41); `pending` and `statuses` are the model's own record of the host's side. -/
@[ext]
structure State where
  IS       : InputState
  CAL      : CalibrationData
  OS       : OutputState
  CI       : CalibratedIMU
  TXBUF    : Memory
  RXBUF    : Memory
  /-- What the host does next, oldest first (R42: the command list; its head is the "pc"). Log entry 1. -/
  pending  : List HostAction
  /-- The statuses returned so far, oldest first (R230, R271). Log entry 2. -/
  statuses : List Status
  deriving DecidableEq, Repr

/-- Where a step stops because the HOST did what it may not do. The block itself has no faults (R236). -/
inductive Fault where
  /-- DECIN or DECCAL needs the byte of `RXBUF` at this index, below `len`, and the host never supplied it.
  Raised by DECIN and DECCAL; safe (log entry 6). -/
  | rxByteNotSupplied (index : Nat)
  /-- The host places bytes in `RXBUF` up to an index at or above `RX_CAP` (R50). Raised by the host action
  `loadRx`; safe (log entry 16). -/
  | rxIndexBeyondCapacity (index : Nat)
  /-- The host reads `TXBUF` at an index at or above 32 (R50). Raised by `hostReadTx`; safe (log entry 16). -/
  | txIndexOutOfRange (index : Nat)
  deriving DecidableEq, Repr

/-- What the model gives no meaning to. -/
inductive Refusal where
  /-- An operation without a meaning yet. Raised by an arm of `exec` only; safe. -/
  | notModelled (mnemonic : String)
  /-- A DECIN or DECCAL whose `len` exceeds `RX_CAP` is no command (R70). Raised by the step; safe
  (log entry 8). -/
  | lenOutOfRange (len : Nat)
  /-- The host reads `TXBUF` before the first ENCOUT (R40, U12). Raised by `hostReadTx`; safe (log entry 7). -/
  | txbufHoldsNoValue
  deriving DecidableEq, Repr

/-- R24, R49: the canonical "no input" state. -/
def InputState.reset : InputState :=
  { ls_x := 128, ls_y := 128, rs_x := 128, rs_y := 128, dpad := .neutral
    square := false, cross := false, circle := false, triangle := false
    l1 := false, r1 := false, l2 := false, r2 := false
    share := false, options := false, l3 := false, r3 := false, ps := false, tpad := false
    l2_analog := 0, r2_analog := 0, timestamp := 0, frame := 0
    gyro_pitch := 0, gyro_yaw := 0, gyro_roll := 0, accel_x := 0, accel_y := 0, accel_z := 0
    bat_level := 0, bat_cable := false, bat_headphones := false, bat_mic := false
    tp_count := 0, tp_counter := 0
    f0 := { active := false, id := 0, x := 0, y := 0 }
    f1 := { active := false, id := 0, x := 0, y := 0 } }

/-- R32, R49: all constants 0, `valid` 0. -/
def CalibrationData.reset : CalibrationData :=
  { gyro_pitch_bias := 0, gyro_yaw_bias := 0, gyro_roll_bias := 0
    gyro_pitch_plus := 0, gyro_pitch_minus := 0, gyro_yaw_plus := 0, gyro_yaw_minus := 0
    gyro_roll_plus := 0, gyro_roll_minus := 0, gyro_speed_plus := 0, gyro_speed_minus := 0
    accel_x_plus := 0, accel_x_minus := 0, accel_y_plus := 0, accel_y_minus := 0
    accel_z_plus := 0, accel_z_minus := 0, valid := false }

/-- R34, R49: all fields 0. -/
def OutputState.reset : OutputState :=
  { heavy := 0, light := 0, led_r := 0, led_g := 0, led_b := 0, flash_on := 0, flash_off := 0 }

/-- R36, R37, R49: six times +0.0. -/
def CalibratedIMU.reset : CalibratedIMU :=
  { gyro_pitch := 0, gyro_yaw := 0, gyro_roll := 0, accel_x := 0, accel_y := 0, accel_z := 0 }

/-- R49, R260: the block right after power-on. The host has placed nothing in `RXBUF` (log entry 6), has nothing
pending (log entry 1) and has been answered nothing (log entry 2). -/
def State.reset : State :=
  { IS := .reset, CAL := .reset, OS := .reset, CI := .reset, TXBUF := .empty, RXBUF := .empty
    pending := [], statuses := [] }

end Sys2Proof.Machine
end

