-- ==== Sys2Proof/Machine/Ops.lean ====
section
/-! DEFINITION. The operations every meaning is built from: reading and writing a byte space, replacing a register,
returning a status (the spec's "trap entry", R235), and the reset event. -/

namespace Sys2Proof.Machine

/-! ### Byte spaces (R50, R51) -/

/-- The byte listed at index `a`, if any. -/
def readCells : List Host.Cell → Nat → Option Byte
  | [], _ => none
  | (c, v) :: rest, a => if c = a then some v else readCells rest a

/-- List `b` at index `a`, in its place in the order. -/
def insertCell (a : Nat) (b : Byte) : List Host.Cell → List Host.Cell
  | [] => [(a, b)]
  | (c, v) :: rest =>
    if a < c then (a, b) :: (c, v) :: rest
    else if a = c then (a, b) :: rest
    else (c, v) :: insertCell a b rest

/-- R12: the byte at index `a`; `none` where the space holds no value. -/
def Memory.read (m : Memory) (a : Nat) : Option Byte := readCells m.cells a

/-- R12: write one byte. -/
def Memory.write (m : Memory) (a : Nat) (b : Byte) : Memory := { cells := insertCell a b m.cells }

/-- Write bytes at consecutive indices from `a` up. -/
def Memory.writeBytes (m : Memory) (a : Nat) : List Byte → Memory
  | [] => m
  | b :: rest => (m.write a b).writeBytes (a + 1) rest

/-- The bytes of a space as the field rules read them (`RXBUF[a]`, R12). It is only used at indices that hold a
value: the 0 for the others reaches no result (`decodeReport`). -/
def Memory.bytes (m : Memory) : Nat → Byte := fun a => (m.read a).getD 0

/-! ### Registers: each operation replaces a whole register (R30, R33, R35, R38) -/

def State.setIS (s : State) (v : InputState) : State := { s with IS := v }
def State.setCAL (s : State) (v : CalibrationData) : State := { s with CAL := v }
def State.setOS (s : State) (v : OutputState) : State := { s with OS := v }
def State.setCI (s : State) (v : CalibratedIMU) : State := { s with CI := v }
def State.setTXBUF (s : State) (m : Memory) : State := { s with TXBUF := m }
def State.setRXBUF (s : State) (m : Memory) : State := { s with RXBUF := m }
def State.setPending (s : State) (q : List HostAction) : State := { s with pending := q }

/-! ### Statuses: the spec's "trap entry" and its whole answer to the host -/

/-- R74: the code of a status. -/
def Status.code : Status → Nat
  | .ok => 0
  | .tooShort => 1
  | .unexpectedReportId => 2
  | .illegalOp => 3

/-- R12 `respond(st)`, R230, R235: end the command with status `st`. Nothing is saved, no mode changes and control
goes nowhere; the status goes to the host and is not stored in the block. There is no return from it (R236). -/
def respond (st : Status) (s : State) : State := { s with statuses := s.statuses ++ [st] }

/-- What decoding a report ends in: a record, an error status, or the index of a byte below `len` that the host
never supplied. -/
inductive Decoded (α : Type) where
  | ok (v : α)
  | error (st : Status)
  | noByte (index : Nat)
  deriving DecidableEq, Repr

/-- R110, R170: on success replace the register and return OK, on an error change nothing and return the error. -/
def answer {α : Type} (r : Decoded α) (commit : α → State) (s : State) :
    Host.Outcome State Fault Refusal :=
  match r with
  | .ok v => .next (respond .ok (commit v))
  | .error st => .next (respond st s)
  | .noByte a => .fault (.rxByteNotSupplied a)

/-! ### Reset -/

/-- R260, R261: the reset event. Every register takes its reset value and `TXBUF` holds no value; `RXBUF` is the
host's and is kept, and so is the host's own record (log entry 14). -/
def resetBlock (s : State) : State :=
  { s with IS := .reset, CAL := .reset, OS := .reset, CI := .reset, TXBUF := .empty }

end Sys2Proof.Machine
end

