-- ==== Sys2Proof/Machine/Operands.lean ====
section
/-! DEFINITION. Every field form of the three reports (R52, R56, R77 to R82), and the frame shared by the two
report decoders: the checks in their order, then the fields (R57, R111, R171). A field rule takes the bytes of the
report as a function of the index. -/

namespace Sys2Proof.Machine

/-- R79: a single-bit field, `byte[i]`. -/
def bitOf (b : Byte) (i : Nat) : Bool := b.getLsbD i

/-- R79: the nibble `byte[3:0]`. -/
def lowNibble (b : Byte) : BitVec 4 := b.extractLsb' 0 4

/-- R79: the nibble `byte[7:4]`. -/
def highNibble (b : Byte) : BitVec 4 := b.extractLsb' 4 4

/-- R79, R116: the frame counter `byte[7:2]`. -/
def frameOf (b : Byte) : BitVec 6 := b.extractLsb' 2 6

/-- R79: the tracking id `byte[6:0]`. -/
def trackingId (b : Byte) : BitVec 7 := b.extractLsb' 0 7

/-- R52, R77: `u16le(a)`, the byte at the lower index being the less significant. -/
def u16le (buf : Nat → Byte) (a : Nat) : Half := buf (a + 1) ++ buf a

/-- R78: `s16le(a)`. The same 16-bit pattern; its value is `toInt`, the two's complement reading (`sext_16`). -/
def s16le (buf : Nat → Byte) (a : Nat) : Half := u16le buf a

/-- R80: the direction of a raw D-pad nibble, all sixteen values. -/
def dpadOf (n : BitVec 4) : DPad :=
  match n.toNat with
  | 0 => .north
  | 1 => .ne
  | 2 => .east
  | 3 => .se
  | 4 => .south
  | 5 => .sw
  | 6 => .west
  | 7 => .nw
  | _ => .neutral

/-- R27: the number the host reads in `IS.dpad`. -/
def DPad.code : DPad → Nat
  | .north => 0
  | .ne => 1
  | .east => 2
  | .se => 3
  | .south => 4
  | .sw => 5
  | .west => 6
  | .nw => 7
  | .neutral => 8

/-- R56, R81, R82, R123: the finger record at indices `f` to `f + 3`. -/
def fingerAt (buf : Nat → Byte) (f : Nat) : TouchFinger :=
  { active := !bitOf (buf f) 7
    id := trackingId (buf f)
    x := lowNibble (buf (f + 2)) ++ buf (f + 1)
    y := buf (f + 3) ++ highNibble (buf (f + 2)) }

/-- The checks of R111 and R171, in their order and before any field is read, then the fields. `indices` are the
indices the fields use, `needs` says which of them this build reads. Below `minLen` no byte is read; with a wrong
tag only byte 0 is (R57, R231, R232). -/
def decodeReport {α : Type} (minLen : Nat) (tag : Byte) (indices : List Nat) (needs : Nat → Bool)
    (fields : (Nat → Byte) → α) (rx : Memory) (len : Nat) : Decoded α :=
  if len < minLen then .error .tooShort
  else
    match rx.read 0 with
    | none => .noByte 0
    | some t =>
      if t ≠ tag then .error .unexpectedReportId
      else
        match indices.find? (fun a => (rx.read a).isNone && needs a) with
        | some a => .noByte a
        | none => .ok (fields rx.bytes)

/-- R18, R68: the same checks and fields on a report given as the list of its bytes, `len` being the number of
bytes. This is the document's own `decode(buffer, length)`. -/
def decodeBuffer {α : Type} (minLen : Nat) (tag : Byte) (fields : (Nat → Byte) → α) (buf : List Byte) :
    Except Status α :=
  if buf.length < minLen then .error .tooShort
  else if buf.getD 0 0 ≠ tag then .error .unexpectedReportId
  else .ok (fields fun a => buf.getD a 0)

end Sys2Proof.Machine
end

