-- ==== Sys2Proof/Machine/Flags.lean ====
section
/-! DEFINITION. The one flag of the block, `CAL.valid` (R43), and its rule (R176). -/

namespace Sys2Proof.Machine

/-- R176, R181: the difference of a reference pair, in a width that cannot overflow. -/
def pairDiff (plus minus : Half) : Int := plus.toInt - minus.toInt

/-- R176: all six plus/minus differences are non-zero. The biases and the speed references play no part (R177). -/
def pairsValid (c : CalibrationData) : Bool :=
  pairDiff c.gyro_pitch_plus c.gyro_pitch_minus != 0
    && pairDiff c.gyro_yaw_plus c.gyro_yaw_minus != 0
    && pairDiff c.gyro_roll_plus c.gyro_roll_minus != 0
    && pairDiff c.accel_x_plus c.accel_x_minus != 0
    && pairDiff c.accel_y_plus c.accel_y_minus != 0
    && pairDiff c.accel_z_plus c.accel_z_minus != 0

end Sys2Proof.Machine
end

