-- ==== Sys2Proof/Machine/Calibration.lean ====
section
/-! DEFINITION. DECCAL and the function `decode_cal` it applies (spec/42_calibration_decoder.md). -/

namespace Sys2Proof.Machine

/-- R87, R172 to R175: the seventeen constants of a record; the flag is set by `calibrationRecord`. -/
def calibrationConstants (buf : Nat → Byte) : CalibrationData :=
  { gyro_pitch_bias := s16le buf 1
    gyro_yaw_bias := s16le buf 3
    gyro_roll_bias := s16le buf 5
    gyro_pitch_plus := s16le buf 7
    gyro_pitch_minus := s16le buf 9
    gyro_yaw_plus := s16le buf 11
    gyro_yaw_minus := s16le buf 13
    gyro_roll_plus := s16le buf 15
    gyro_roll_minus := s16le buf 17
    gyro_speed_plus := s16le buf 19
    gyro_speed_minus := s16le buf 21
    accel_x_plus := s16le buf 23
    accel_x_minus := s16le buf 25
    accel_y_plus := s16le buf 27
    accel_y_minus := s16le buf 29
    accel_z_plus := s16le buf 31
    accel_z_minus := s16le buf 33
    valid := false }

/-- R171, R176, R178: all constants are kept, the flag says whether they are usable. -/
def calibrationRecord (buf : Nat → Byte) : CalibrationData :=
  { calibrationConstants buf with valid := pairsValid (calibrationConstants buf) }

/-- R87, R180: the indices of the constants; 35 and 36 are never read. -/
def calibrationIndices : List Nat :=
  [1, 2, 3, 4, 5, 6, 7, 8, 9, 10, 11, 12, 13, 14, 15, 16, 17, 18, 19, 20, 21, 22,
    23, 24, 25, 26, 27, 28, 29, 30, 31, 32, 33, 34]

/-- R171: `decode_cal` on the first `len` bytes of `RXBUF`. -/
def decodeCal (rx : Memory) (len : Nat) : Decoded CalibrationData :=
  decodeReport Config.CAL_MIN_LEN Config.CAL_TAG calibrationIndices (fun _ => true) calibrationRecord rx len

/-- R18, R68, R171: `decode_cal` as the document's pure function of a byte list. -/
def decodeCalBuffer (buf : List Byte) : Except Status CalibrationData :=
  decodeBuffer Config.CAL_MIN_LEN Config.CAL_TAG calibrationRecord buf

/-- R170: DECCAL. -/
def execDeccal (len : Nat) (s : State) : Host.Outcome State Fault Refusal :=
  answer (decodeCal s.RXBUF len) s.setCAL s

end Sys2Proof.Machine
end

