-- ==== Sys2Proof/Machine/Binary64.lean ====
section
/-! DEFINITION. IEEE 754 binary64 as the calibration engine uses it (R12, R203 to R205, D16): conversion of an
integer and division, each the exact real result rounded once, to nearest, ties to even. Sign, exponent and fraction
stand at bit 63, bits 62..52 and bits 51..0, with exponent bias 1023 (log entry 12). There are no flags, traps or
modes (R209). -/

namespace Sys2Proof.Machine

/-- The sign bit. -/
def f64Neg (x : F64) : Bool := x.getLsbD 63

/-- The biased exponent field. -/
def f64Exp (x : F64) : Nat := x.toNat / 2 ^ 52 % 2 ^ 11

/-- The fraction field. -/
def f64Frac (x : F64) : Nat := x.toNat % 2 ^ 52

/-- Neither an infinity nor a NaN. -/
def f64Finite (x : F64) : Bool := f64Exp x != 2047

/-- The significand as an integer: with the hidden bit unless the exponent field is 0. -/
def f64Mant (x : F64) : Nat := if f64Exp x = 0 then f64Frac x else 2 ^ 52 + f64Frac x

/-- The magnitude of a finite `x` is `f64Mant x * 2 ^ f64Weight x / 2 ^ 1075`. -/
def f64Weight (x : F64) : Nat := max (f64Exp x) 1

/-- The nearest integer to `n / d`, ties to even (`0 < d`). -/
def roundHalfEven (n d : Nat) : Nat :=
  let q := n / d
  let r := n % d
  if 2 * r < d then q
  else if d < 2 * r then q + 1
  else if q % 2 = 0 then q
  else q + 1

/-- The exponent of `n / d`: the `e` with `2 ^ e ≤ n / d < 2 ^ (e + 1)` (`0 < n`, `0 < d`). -/
def ratioExp (n d : Nat) : Int :=
  let a := Nat.log2 n
  let b := Nat.log2 d
  if d * 2 ^ a ≤ n * 2 ^ b then (a : Int) - b else (a : Int) - b - 1

/-- The pattern, without its sign bit, of the positive real `n / d` rounded to nearest, ties to even. One unit in
the last place is `2 ^ (e - 52)`, where `e` is the exponent of `n / d` but at least -1022; the nearest multiple `k`
of that unit gives the pattern, a carry out of the fraction going into the exponent field. Past the greatest finite
number the pattern is that of infinity. -/
def roundRatio (n d : Nat) : Nat :=
  if n = 0 then 0
  else
    let e := max (ratioExp n d) (-1022)
    let shift : Int := 52 - e
    let k := roundHalfEven (n * 2 ^ shift.toNat) (d * 2 ^ (-shift).toNat)
    min ((e + 1022).toNat * 2 ^ 52 + k) (2047 * 2 ^ 52)

/-- A pattern from its sign and the rest. -/
def signed (neg : Bool) (mag : Nat) : F64 := BitVec.ofNat 64 ((if neg then 2 ^ 63 else 0) + mag)

/-- R12, R204: `i2f(n)`, the binary64 number equal to `n`; `i2f(0)` is +0.0. Exact for every `n` the rules produce
(log entry 11 for the others). -/
def i2f (n : Int) : F64 := signed (decide (n < 0)) (roundRatio n.natAbs 1)

/-- R12, R205: `fdiv(x, y)`, the quotient of two finite numbers, `y` non-zero, rounded once. For other operands the
spec states no result (R206: there are none): a free value (log entry 10). -/
def fdiv (x y : F64) : F64 :=
  if f64Finite x && f64Finite y && f64Mant y != 0 then
    let low := min (f64Weight x) (f64Weight y)
    signed (f64Neg x != f64Neg y)
      (roundRatio (f64Mant x * 2 ^ (f64Weight x - low)) (f64Mant y * 2 ^ (f64Weight y - low)))
  else Config.fdivSpecial x y

end Sys2Proof.Machine
end

