-- ==== Sys2Proof/Machine/Engine.lean ====
section
/-! DEFINITION. CALIB and the function `calibrate` it applies (spec/43_calibration_engine.md). The integer stage is
exact (R200): every operand is the integer value of a signed 16-bit field. -/

namespace Sys2Proof.Machine

/-- The IMURaw record of the document: the six samples of `IS` (R22). -/
structure IMURaw where
  gyro_pitch : Half
  gyro_yaw   : Half
  gyro_roll  : Half
  accel_x    : Half
  accel_y    : Half
  accel_z    : Half
  deriving DecidableEq, Repr

/-- R22: the samples held by `IS`; there is no second copy of them. -/
def rawOf (v : InputState) : IMURaw :=
  { gyro_pitch := v.gyro_pitch, gyro_yaw := v.gyro_yaw, gyro_roll := v.gyro_roll
    accel_x := v.accel_x, accel_y := v.accel_y, accel_z := v.accel_z }

/-- R193: nominal conversion of a gyro sample. -/
def gyroNominal (r : Half) : F64 := fdiv (i2f r.toInt) Config.GYRO_NOMINAL_DIV

/-- R193: nominal conversion of an accelerometer sample. -/
def accelNominal (r : Half) : F64 := fdiv (i2f r.toInt) Config.ACCEL_NOMINAL_DIV

/-- R194, R196: `abs(plus - minus)`, 0 to 65535. -/
def pairRange (plus minus : Half) : Nat := (pairDiff plus minus).natAbs

/-- R194, R195, R199: calibrated gyro, with the guard against a zero denominator. -/
def gyroCal (r bias plus minus sp sm : Half) : F64 :=
  let den := pairRange plus minus
  if den = 0 then i2f r.toInt
  else fdiv (i2f ((r.toInt - bias.toInt) * (sp.toInt + sm.toInt))) (i2f den)

/-- R197: the centre, `(plus + minus) / 2` rounded toward zero. -/
def accelCenter (plus minus : Half) : Int := (plus.toInt + minus.toInt).tdiv 2

/-- R196, R198, R199: calibrated accelerometer; the half range keeps the half. -/
def accelCal (r plus minus : Half) : F64 :=
  let den := pairRange plus minus
  if den = 0 then i2f r.toInt
  else fdiv (i2f (r.toInt - accelCenter plus minus)) (fdiv (i2f den) Config.TWO)

/-- R191, R192: `calibrate(raw, cal)`. The flag selects for all six axes together. -/
def calibrate (raw : IMURaw) (c : CalibrationData) : CalibratedIMU :=
  if c.valid then
    { gyro_pitch := gyroCal raw.gyro_pitch c.gyro_pitch_bias c.gyro_pitch_plus c.gyro_pitch_minus
        c.gyro_speed_plus c.gyro_speed_minus
      gyro_yaw := gyroCal raw.gyro_yaw c.gyro_yaw_bias c.gyro_yaw_plus c.gyro_yaw_minus
        c.gyro_speed_plus c.gyro_speed_minus
      gyro_roll := gyroCal raw.gyro_roll c.gyro_roll_bias c.gyro_roll_plus c.gyro_roll_minus
        c.gyro_speed_plus c.gyro_speed_minus
      accel_x := accelCal raw.accel_x c.accel_x_plus c.accel_x_minus
      accel_y := accelCal raw.accel_y c.accel_y_plus c.accel_y_minus
      accel_z := accelCal raw.accel_z c.accel_z_plus c.accel_z_minus }
  else
    { gyro_pitch := gyroNominal raw.gyro_pitch
      gyro_yaw := gyroNominal raw.gyro_yaw
      gyro_roll := gyroNominal raw.gyro_roll
      accel_x := accelNominal raw.accel_x
      accel_y := accelNominal raw.accel_y
      accel_z := accelNominal raw.accel_z }

/-- R190: CALIB. -/
def execCalib (s : State) : Host.Outcome State Fault Refusal :=
  .next (respond .ok (s.setCI (calibrate (rawOf s.IS) s.CAL)))

end Sys2Proof.Machine
end

