-- ==== Sys2Proof/Machine/Input.lean ====
section
/-! DEFINITION. DECIN and the function `decode_input` it applies (spec/40_input_decoder.md). -/

namespace Sys2Proof.Machine

/-- R122: the index where finger 0 starts. -/
def fingerBase (tv : TouchVariant) (B : Nat) : Nat :=
  match tv with
  | .A => B + 33
  | .B => B + 34

/-- R122: the packet count; variant A has no such byte and writes 0. -/
def touchCount (tv : TouchVariant) (B : Nat) (buf : Nat → Byte) : Byte :=
  match tv with
  | .A => 0
  | .B => buf (B + 32)

/-- R122: the packet counter. -/
def touchCounter (tv : TouchVariant) (B : Nat) (buf : Nat → Byte) : Byte :=
  match tv with
  | .A => buf (B + 32)
  | .B => buf (B + 33)

/-- R112 to R123: the InputState of a report whose relative offset 0 stands at index `B` (R8). -/
def inputRecord (tv : TouchVariant) (B : Nat) (buf : Nat → Byte) : InputState :=
  { ls_x := buf (B + 0)
    ls_y := buf (B + 1)
    rs_x := buf (B + 2)
    rs_y := buf (B + 3)
    dpad := dpadOf (lowNibble (buf (B + 4)))
    square := bitOf (buf (B + 4)) 4
    cross := bitOf (buf (B + 4)) 5
    circle := bitOf (buf (B + 4)) 6
    triangle := bitOf (buf (B + 4)) 7
    l1 := bitOf (buf (B + 5)) 0
    r1 := bitOf (buf (B + 5)) 1
    l2 := bitOf (buf (B + 5)) 2
    r2 := bitOf (buf (B + 5)) 3
    share := bitOf (buf (B + 5)) 4
    options := bitOf (buf (B + 5)) 5
    l3 := bitOf (buf (B + 5)) 6
    r3 := bitOf (buf (B + 5)) 7
    ps := bitOf (buf (B + 6)) 0
    tpad := bitOf (buf (B + 6)) 1
    frame := frameOf (buf (B + 6))
    l2_analog := buf (B + 7)
    r2_analog := buf (B + 8)
    timestamp := u16le buf (B + 9)
    gyro_pitch := s16le buf (B + 12)
    gyro_yaw := s16le buf (B + 14)
    gyro_roll := s16le buf (B + 16)
    accel_x := s16le buf (B + 18)
    accel_y := s16le buf (B + 20)
    accel_z := s16le buf (B + 22)
    bat_level := lowNibble (buf (B + 29))
    bat_cable := bitOf (buf (B + 29)) 4
    bat_headphones := bitOf (buf (B + 29)) 5
    bat_mic := bitOf (buf (B + 29)) 6
    tp_count := touchCount tv B buf
    tp_counter := touchCounter tv B buf
    f0 := fingerAt buf (fingerBase tv B)
    f1 := fingerAt buf (fingerBase tv B + 4) }

/-- R83 to R85: the relative offsets of the bytes some variant reads; the ignored ones (R124) are left out. -/
def inputOffsets : List Nat :=
  [0, 1, 2, 3, 4, 5, 6, 7, 8, 9, 10, 12, 13, 14, 15, 16, 17, 18, 19, 20, 21, 22, 23, 29,
    32, 33, 34, 35, 36, 37, 38, 39, 40, 41]

/-- R84, R85: relative offset 41 is read under variant B only. -/
def inputNeeds (tv : TouchVariant) (B : Nat) (a : Nat) : Bool := a != B + 41 || tv == .B

/-- R111: `decode_input` on the first `len` bytes of `RXBUF`. -/
def decodeInput (tv : TouchVariant) (rx : Memory) (len : Nat) : Decoded InputState :=
  decodeReport Config.IN_MIN_LEN Config.IN_TAG (inputOffsets.map (Config.BASE + ·))
    (inputNeeds tv Config.BASE) (inputRecord tv Config.BASE) rx len

/-- R18, R68, R111: `decode_input` as the document's pure function of a byte list. -/
def decodeInputBuffer (tv : TouchVariant) (buf : List Byte) : Except Status InputState :=
  decodeBuffer Config.IN_MIN_LEN Config.IN_TAG (inputRecord tv Config.BASE) buf

/-- DECIN in a block built with touch variant `tv`. -/
def execDecinUnder (tv : TouchVariant) (len : Nat) (s : State) : Host.Outcome State Fault Refusal :=
  answer (decodeInput tv s.RXBUF len) s.setIS s

/-- R110: DECIN. -/
def execDecin (len : Nat) (s : State) : Host.Outcome State Fault Refusal :=
  execDecinUnder Config.touchVariant len s

end Sys2Proof.Machine
end

