-- ==== Sys2Proof/Machine/Output.lean ====
section
/-! DEFINITION. LDOUT, ENCOUT, the function `encode_output` and the host's read of `TXBUF`
(spec/41_output_encoder.md). -/

namespace Sys2Proof.Machine

/-- R86, R151, R152: the 32 bytes of the output report; the light motor stands before the heavy one. -/
def encodeOutput (o : OutputState) : Vector Byte 32 :=
  #v[Config.OUT_TAG, Config.OUT_FLAGS1, Config.OUT_FLAGS2, 0x00,
     o.light, o.heavy, o.led_r, o.led_g, o.led_b, o.flash_on, o.flash_off,
     0, 0, 0, 0, 0, 0, 0, 0, 0, 0, 0, 0, 0, 0, 0, 0, 0, 0, 0, 0, 0]

/-- R150: LDOUT, the operands in the order of `arg[0]` to `arg[6]`. -/
def execLdout (heavy light ledR ledG ledB flashOn flashOff : Byte) (s : State) :
    Host.Outcome State Fault Refusal :=
  .next (respond .ok (s.setOS
    { heavy := heavy, light := light, led_r := ledR, led_g := ledG, led_b := ledB
      flash_on := flashOn, flash_off := flashOff }))

/-- R153, R66: ENCOUT writes all 32 bytes of `TXBUF`. -/
def execEncout (s : State) : Host.Outcome State Fault Refusal :=
  .next (respond .ok (s.setTXBUF (s.TXBUF.writeBytes 0 (encodeOutput s.OS).toList)))

/-- R40, R47, R267: the host reads one byte of `TXBUF` between commands. Reading changes nothing. -/
def hostReadTx (a : Nat) (s : State) : Host.Outcome Byte Fault Refusal :=
  if a < Config.OUT_LEN then
    match s.TXBUF.read a with
    | some b => .next b
    | none => .refused .txbufHoldsNoValue
  else .fault (.txIndexOutOfRange a)

end Sys2Proof.Machine
end

