-- ==== Sys2Proof/Machine/Dispatch.lean ====
section
/-! DEFINITION. The meaning of each operation, one arm per constructor. -/

namespace Sys2Proof.Machine

/-- The effect of one operation (R71). -/
def exec (i : Instr) (s : State) : Host.Outcome State Fault Refusal :=
  match i with
  | .decin len => Sys2Proof.Machine.execDecin len s
  | .encout => Sys2Proof.Machine.execEncout s
  | .deccal len => Sys2Proof.Machine.execDeccal len s
  | .calib => Sys2Proof.Machine.execCalib s
  | .ldout heavy light ledR ledG ledB flashOn flashOff => Sys2Proof.Machine.execLdout heavy light ledR ledG ledB flashOn flashOff s

end Sys2Proof.Machine
end

