-- ==== Sys2Proof/Machine/HostPort.lean ====
section
/-! DEFINITION. What the host's actions do to the block: a command is decoded and run, bytes are placed in `RXBUF`,
a reset happens (R6, R41, R60, R73, R260). The assembler lines of R94 and R95 expand into such actions. -/

namespace Sys2Proof.Machine

/-- R60, R70 to R73: one command, atomically. An illegal `op` returns IllegalOp and changes nothing (log entry 9). -/
def runCommand (c : Command) (s : State) : Host.Outcome State Fault Refusal :=
  match decode c with
  | .ok i => exec i s
  | .error (.illegalOp _) => .next (respond .illegalOp s)
  | .error (.lenOutOfRange len) => .refused (.lenOutOfRange len)

/-- R41, R50: the host places bytes in `RXBUF` from index `start` up; an index at or above `RX_CAP` does not exist
(log entry 16). -/
def runLoadRx (start : Nat) (bytes : List Byte) (s : State) : Host.Outcome State Fault Refusal :=
  if start + bytes.length ≤ Config.rxCap then .next (s.setRXBUF (s.RXBUF.writeBytes start bytes))
  else .fault (.rxIndexBeyondCapacity (max start Config.rxCap))

/-- One action of the host. -/
def runAction (x : HostAction) (s : State) : Host.Outcome State Fault Refusal :=
  match x with
  | .loadRx start bytes => runLoadRx start bytes s
  | .command c => runCommand c s
  | .reset => .next (resetBlock s)

/-- R94, R95: the host actions of one assembler line. `DECIN [b0 b1 ...]` places the listed bytes in `RXBUF` and
`len` is their number; ENCODE is LDOUT followed by ENCOUT. -/
def expandLine : AsmLine → List HostAction
  | .decin bytes => [.loadRx 0 bytes, .command (encode (.decin bytes.length))]
  | .encout => [.command (encode .encout)]
  | .deccal bytes => [.loadRx 0 bytes, .command (encode (.deccal bytes.length))]
  | .calib => [.command (encode .calib)]
  | .ldout heavy light ledR ledG ledB flashOn flashOff =>
    [.command (encode (.ldout heavy light ledR ledG ledB flashOn flashOff))]
  | .encode heavy light ledR ledG ledB flashOn flashOff =>
    [.command (encode (.ldout heavy light ledR ledG ledB flashOn flashOff)), .command (encode .encout)]

end Sys2Proof.Machine
end

