-- ==== Sys2Proof/Machine/Step.lean ====
section
/-! DEFINITION. One step: the host's next action. R42: the actions are taken one at a time in the order the host
issues them; each is complete before the next begins. -/

namespace Sys2Proof.Machine

/-- One step. With nothing pending the block waits and nothing changes (R261; log entry 13). -/
def step (s : State) : Host.Outcome State Fault Refusal :=
  match s.pending with
  | [] => .next s
  | x :: rest => runAction x (s.setPending rest)

/-- `s` with the command of an operation-table row as the host's next action (log entry 1). -/
def State.withFetchWord (s : State) (nbits w : Nat) : State :=
  s.setPending (.command (commandOfTableWord nbits w) :: s.pending)

end Sys2Proof.Machine
end

