-- ==== Sys2Proof/Safety.lean ====
section
/-! DEFINITION. The terms claims are stated in: what a binary64 pattern stands for, what "rounded to nearest, ties to
even" means, what the host must respect, what a run shows, and the invariant of the block. -/

namespace Sys2Proof.Machine

/-! ### Outcomes -/

/-- The next state of an outcome, if it is one. -/
def nextState? {σ φ ρ : Type} : Host.Outcome σ φ ρ → Option σ
  | .next s => some s
  | .fault _ => none
  | .refused _ => none

/-! ### Binary64 (R203 to R206) -/

/-- The number a finite pattern stands for. -/
def f64Value (x : F64) : ℚ :=
  (if f64Neg x then -1 else 1) * ((f64Mant x : ℚ) * 2 ^ f64Weight x / 2 ^ 1075)

/-- R205: `x` is the real `q` rounded to binary64, to nearest, ties to even; a zero is +0.0. -/
structure RoundedNearestEven (x : F64) (q : ℚ) : Prop where
  finite   : f64Finite x = true
  nearest  : ∀ y, f64Finite y = true → |f64Value x - q| ≤ |f64Value y - q|
  tiesEven : ∀ y, f64Finite y = true → |f64Value y - q| = |f64Value x - q| → f64Value y ≠ f64Value x →
    f64Mant x % 2 = 0
  plusZero : q = 0 → x = 0

/-- R39, R206: not a NaN, not an infinity, not -0.0 and not subnormal. -/
def CleanF64 (x : F64) : Prop := f64Finite x = true ∧ (x = 0 ∨ f64Exp x ≠ 0)

/-! ### What the host must respect -/

/-- R41, R70: the host has placed the report `b` in `RXBUF`: every byte below `len` is there. -/
def Holds (rx : Memory) (len : Nat) (b : Nat → Byte) : Prop := ∀ a, a < len → rx.read a = some (b a)

/-- R41, R70: the host has supplied every byte below `len`. -/
def Supplied (rx : Memory) (len : Nat) : Prop := ∀ a, a < len → (rx.read a).isSome = true

/-- R110: `RXBUF` holds the input report `b` of `len` bytes, long enough and rightly tagged. -/
structure InputAccepted (s : State) (len : Nat) (b : Nat → Byte) : Prop where
  long  : 64 ≤ len
  holds : Holds s.RXBUF len b
  tag   : b 0 = 0x01

/-- R170: `RXBUF` holds the calibration record `b` of `len` bytes, long enough and rightly tagged. -/
structure RecordAccepted (s : State) (len : Nat) (b : Nat → Byte) : Prop where
  long  : 37 ≤ len
  holds : Holds s.RXBUF len b
  tag   : b 0 = 0x02

/-- R12, R52: the unsigned number of the two bytes at indices `a` and `a + 1`, little-endian. -/
def pairNumber (b : Nat → Byte) (a : Nat) : Nat := (b a).toNat + 256 * (b (a + 1)).toNat

/-- R12: `sext_16`. -/
def sext16 (v : Nat) : Int := if v < 32768 then v else (v : Int) - 65536

/-- R81, R82: the finger record of the bytes `b0 b1 b2 b3` at indices `f` to `f + 3`, in one formula. -/
structure IsFinger (t : TouchFinger) (b : Nat → Byte) (f : Nat) : Prop where
  active : t.active = !((b f).getLsbD 7)
  id     : t.id.toNat = (b f).toNat % 128
  x      : t.x.toNat = (b (f + 1)).toNat + 256 * ((b (f + 2)).toNat % 16)
  y      : t.y.toNat = (b (f + 2)).toNat / 16 + 16 * (b (f + 3)).toNat

/-- R90: the indices of an input report whose bytes are ignored; of index 30 only bit 7 is. -/
def inputIgnored (tv : TouchVariant) (a : Nat) : Prop :=
  a = 12 ∨ (25 ≤ a ∧ a ≤ 29) ∨ a = 31 ∨ a = 32 ∨ (match tv with | .A => 42 | .B => 43) ≤ a

/-- R128: the 64-byte buffer that decodes to the "no input" state: `x` (0x08 to 0x0F) at index 5 and 0x80 at the
first byte of both finger records. -/
def noInputReport (tv : TouchVariant) (x : Byte) (a : Nat) : Byte :=
  if a = 0 then 0x01
  else if a ≤ 4 then 0x80
  else if a = 5 then x
  else if a = (match tv with | .A => 34 | .B => 35) ∨ a = (match tv with | .A => 38 | .B => 39) then 0x80
  else 0x00

/-- R128: the buffer the document's scenario describes. -/
def scenarioReport (a : Nat) : Byte := if a = 0 then 0x01 else if a ≤ 4 then 0x80 else 0x00

/-- R50, R70: what the host may do: place bytes below `RX_CAP`, and declare valid only bytes it has placed. -/
def HostAction.lawful (rx : Memory) : HostAction → Prop
  | .loadRx start bytes => start + bytes.length ≤ Config.rxCap
  | .command c => c.op = 0x01 ∨ c.op = 0x03 → c.len ≤ Config.rxCap ∧ Supplied rx c.len
  | .reset => True

/-- R49: the reset values, written out. -/
structure ResetValues (s : State) : Prop where
  sticks   : s.IS.ls_x = 128 ∧ s.IS.ls_y = 128 ∧ s.IS.rs_x = 128 ∧ s.IS.rs_y = 128
  dpad     : s.IS.dpad = .neutral
  buttons  : s.IS.square = false ∧ s.IS.cross = false ∧ s.IS.circle = false ∧ s.IS.triangle = false ∧
    s.IS.l1 = false ∧ s.IS.r1 = false ∧ s.IS.l2 = false ∧ s.IS.r2 = false ∧ s.IS.share = false ∧
    s.IS.options = false ∧ s.IS.l3 = false ∧ s.IS.r3 = false ∧ s.IS.ps = false ∧ s.IS.tpad = false
  triggers : s.IS.l2_analog = 0 ∧ s.IS.r2_analog = 0
  counters : s.IS.timestamp = 0 ∧ s.IS.frame = 0
  samples  : rawOf s.IS = { gyro_pitch := 0, gyro_yaw := 0, gyro_roll := 0, accel_x := 0, accel_y := 0, accel_z := 0 }
  battery  : s.IS.bat_level = 0 ∧ s.IS.bat_cable = false ∧ s.IS.bat_headphones = false ∧ s.IS.bat_mic = false
  touch    : s.IS.tp_count = 0 ∧ s.IS.tp_counter = 0 ∧
    s.IS.f0 = { active := false, id := 0, x := 0, y := 0 } ∧ s.IS.f1 = { active := false, id := 0, x := 0, y := 0 }
  cal      : s.CAL =
    { gyro_pitch_bias := 0, gyro_yaw_bias := 0, gyro_roll_bias := 0
      gyro_pitch_plus := 0, gyro_pitch_minus := 0, gyro_yaw_plus := 0, gyro_yaw_minus := 0
      gyro_roll_plus := 0, gyro_roll_minus := 0, gyro_speed_plus := 0, gyro_speed_minus := 0
      accel_x_plus := 0, accel_x_minus := 0, accel_y_plus := 0, accel_y_minus := 0
      accel_z_plus := 0, accel_z_minus := 0, valid := false }
  os       : s.OS =
    { heavy := 0, light := 0, led_r := 0, led_g := 0, led_b := 0, flash_on := 0, flash_off := 0 }
  ci       : s.CI =
    { gyro_pitch := 0, gyro_yaw := 0, gyro_roll := 0, accel_x := 0, accel_y := 0, accel_z := 0 }
  txbuf    : ∀ a, s.TXBUF.read a = none

/-- R111, R122: the indices DECIN reads after the tag, under variant `tv`. -/
def inputIndicesRead (tv : TouchVariant) : List Nat :=
  (inputOffsets.map (Config.BASE + ·)).filter (inputNeeds tv Config.BASE)

/-! ### What a run shows (R271) -/

/-- R271: the statuses and the contents of `IS`, `CAL`, `OS`, `CI` and `TXBUF`. -/
structure Observation where
  statuses : List Status
  IS       : InputState
  CAL      : CalibrationData
  OS       : OutputState
  CI       : CalibratedIMU
  TXBUF    : Memory
  deriving DecidableEq, Repr

/-- What the host sees of a state (R47, R271). -/
def State.observe (s : State) : Observation :=
  { statuses := s.statuses, IS := s.IS, CAL := s.CAL, OS := s.OS, CI := s.CI, TXBUF := s.TXBUF }

/-! ### Changes to calibration data the laws of the engine speak of -/

/-- The six axes that have a plus and a minus reference. -/
inductive Axis where
  | gyroPitch | gyroYaw | gyroRoll | accelX | accelY | accelZ
  deriving DecidableEq, Repr

/-- R207: the plus of one axis exchanged with its minus. -/
def CalibrationData.swapPair (x : Axis) (c : CalibrationData) : CalibrationData :=
  match x with
  | .gyroPitch => { c with gyro_pitch_plus := c.gyro_pitch_minus, gyro_pitch_minus := c.gyro_pitch_plus }
  | .gyroYaw => { c with gyro_yaw_plus := c.gyro_yaw_minus, gyro_yaw_minus := c.gyro_yaw_plus }
  | .gyroRoll => { c with gyro_roll_plus := c.gyro_roll_minus, gyro_roll_minus := c.gyro_roll_plus }
  | .accelX => { c with accel_x_plus := c.accel_x_minus, accel_x_minus := c.accel_x_plus }
  | .accelY => { c with accel_y_plus := c.accel_y_minus, accel_y_minus := c.accel_y_plus }
  | .accelZ => { c with accel_z_plus := c.accel_z_minus, accel_z_minus := c.accel_z_plus }

/-! ### The invariant of the block -/

/-- The six fields of `CI` are clean (R39). -/
structure CalibratedIMU.Clean (v : CalibratedIMU) : Prop where
  gyro_pitch : CleanF64 v.gyro_pitch
  gyro_yaw   : CleanF64 v.gyro_yaw
  gyro_roll  : CleanF64 v.gyro_roll
  accel_x    : CleanF64 v.accel_x
  accel_y    : CleanF64 v.accel_y
  accel_z    : CleanF64 v.accel_z

/-- What every step keeps. -/
structure State.Inv (s : State) : Prop where
  /-- `RXBUF` is in canonical form. -/
  rxWf     : s.RXBUF.wf
  /-- R50: `RXBUF` has no index at or above `RX_CAP`. -/
  rxBelow  : ∀ a, (s.RXBUF.read a).isSome = true → a < Config.rxCap
  /-- R40, R66: `TXBUF` holds no value, or the 32 bytes of one output report. -/
  txWhole  : s.TXBUF = Memory.empty ∨ ∃ o, s.TXBUF = Memory.empty.writeBytes 0 (encodeOutput o).toList
  /-- R48, R177: `CAL.valid` is 1 exactly when all six pairs differ. -/
  calValid : s.CAL.valid = pairsValid s.CAL
  /-- R39: `CI` holds no NaN, infinity, -0.0 or subnormal. -/
  ciClean  : s.CI.Clean

end Sys2Proof.Machine
end

