-- ==== Sys2Proof/Certificates/Slice0/Obligations.lean ====
section
/-! DEFINITION. The statements for the provers. Each docstring names the rules of spec/ it formalises, or the
sections it rests on and the log entry of a choice of the model's own. -/

open Sys2Proof Sys2Proof.Machine

/-! ### Encoding -/

/-- R70, R71, R150: no bit of an encoding is dropped. The layout of the number is the model's (log entry 3). -/
def Obligations.DecodeOfEncodeWord : Prop :=
  ∀ i : Instr, i.wellFormed = true → decodeWord (encodeWord i) = .ok i

/-- R71: the operation is the whole value of `op`; the other parts are its operands or ignored. -/
def Obligations.OpByteSelectsOperation : Prop :=
  ∀ c : Command,
    (c.op = 0x01 → c.len ≤ Config.rxCap → decode c = .ok (.decin c.len)) ∧
    (c.op = 0x02 → decode c = .ok .encout) ∧
    (c.op = 0x03 → c.len ≤ Config.rxCap → decode c = .ok (.deccal c.len)) ∧
    (c.op = 0x04 → decode c = .ok .calib) ∧
    (c.op = 0x05 →
      decode c = .ok (.ldout c.arg[0] c.arg[1] c.arg[2] c.arg[3] c.arg[4] c.arg[5] c.arg[6])) ∧
    (c.op = 0x00 ∨ 0x06 ≤ c.op.toNat → decode c = .error (.illegalOp c.op))

/-- R71: the five rows of the operation table, and two commands with operands, as numbers (log entry 3). -/
def Obligations.OperationTableWordsDecode : Prop :=
  decodeTableWord 8 0x01 = some (.decin 0) ∧ decodeTableWord 8 0x02 = some .encout ∧
  decodeTableWord 8 0x03 = some (.deccal 0) ∧ decodeTableWord 8 0x04 = some .calib ∧
  decodeTableWord 8 0x05 = some (.ldout 0 0 0 0 0 0 0) ∧
  decodeWord 0x664433221155AA05 = .ok (.ldout 0xAA 0x55 0x11 0x22 0x33 0x44 0x66) ∧
  decodeWord 0x400000000000000001 = .ok (.decin 64) ∧
  decodeTableWord 8 0x00 = none ∧ decodeTableWord 8 0x06 = none ∧ decodeTableWord 8 0xFF = none

/-- R73: an illegal `op` changes no state and returns IllegalOp. -/
def Obligations.IllegalOpChangesNothing : Prop :=
  ∀ (c : Command) (s : State) (rest : List HostAction),
    c.op = 0x00 ∨ 0x06 ≤ c.op.toNat → s.pending = .command c :: rest →
      step s = .next { s with pending := rest, statuses := s.statuses ++ [.illegalOp] }

/-- R70: `len` lies in 0 to `RX_CAP`; a DECIN or DECCAL beyond it is no command, and the model refuses it by name
(the model's choice, log entry 8). -/
def Obligations.LenBeyondCapacityIsRefused : Prop :=
  ∀ (c : Command) (s : State) (rest : List HostAction),
    c.op = 0x01 ∨ c.op = 0x03 → Config.rxCap < c.len → s.pending = .command c :: rest →
      step s = .refused (.lenOutOfRange c.len)

/-! ### The step -/

/-- R42, R60: a step runs the operation of the host's next command, at the state without that command; and the
operation-table word placed by `withFetchWord` is that next command (log entry 1). -/
def Obligations.StepRunsDecodedCommand : Prop :=
  (∀ (s : State) (c : Command) (rest : List HostAction) (i : Instr),
    s.pending = .command c :: rest → decode c = .ok i →
      i.wellFormed = true ∧ step s = exec i { s with pending := rest }) ∧
  (∀ (s : State) (nbits w : Nat) (i : Instr),
    decodeTableWord nbits w = some i → step (s.withFetchWord nbits w) = exec i s)

/-- R261: the block waits for the next command; that waiting changes nothing is the model's reading (log
entry 13). -/
def Obligations.WaitingChangesNothing : Prop :=
  ∀ s : State, s.pending = [] → step s = .next s

/-- R41, R50: the host places bytes in `RXBUF` and nothing else changes. `RXBUF` has no index at or above `RX_CAP` and
`TXBUF` none at or above 32: a load or a read there faults (the model's choice, log entry 16). -/
def Obligations.HostLoadPlacesBytes : Prop :=
  (∀ (s : State) (a : Nat) (bs : List Byte) (rest : List HostAction),
    s.pending = .loadRx a bs :: rest →
      (a + bs.length ≤ Config.rxCap →
        ∃ m : Memory, step s = .next { s with pending := rest, RXBUF := m } ∧
          (∀ k, (h : k < bs.length) → m.read (a + k) = some bs[k]) ∧
          (∀ x, x < a ∨ a + bs.length ≤ x → m.read x = s.RXBUF.read x) ∧
          (s.RXBUF.wf → m.wf)) ∧
      (Config.rxCap < a + bs.length → step s = .fault (.rxIndexBeyondCapacity (max a Config.rxCap)))) ∧
  (∀ (s : State) (a : Nat), 32 ≤ a → hostReadTx a s = .fault (.txIndexOutOfRange a))

/-- R260: after the reset event every register holds its reset value (R49). That `RXBUF` is not reset is R261; that
the host's own record is kept is the model's (log entry 14). -/
def Obligations.ResetEventRestoresRegisters : Prop :=
  ∀ (s : State) (rest : List HostAction), s.pending = .reset :: rest →
    ∃ t, step s = .next t ∧ ResetValues t ∧ t.RXBUF = s.RXBUF ∧ t.pending = rest ∧ t.statuses = s.statuses

/-- R49: the values after power-on. -/
def Obligations.PowerOnHoldsResetValues : Prop := ResetValues State.reset

/-- R37: the reset `CI` is six times +0.0 and equals `calibrate` of the reset `IS` and `CAL`. -/
def Obligations.ResetCiIsCalibrateOfReset : Prop :=
  State.reset.CI = ⟨0, 0, 0, 0, 0, 0⟩ ∧ calibrate (rawOf State.reset.IS) State.reset.CAL = State.reset.CI

/-! ### DECIN -/

/-- R110: DECIN, its encoding, its three answers and what it writes. -/
def Obligations.DecinDecodesInputReport : Prop :=
  (∀ c : Command, c.op = 0x01 → c.len ≤ Config.rxCap → decode c = .ok (.decin c.len)) ∧
  (∀ (s : State) (len : Nat) (b : Nat → Byte), Holds s.RXBUF len b →
    exec (.decin len) s =
      .next (if len < 64 then { s with statuses := s.statuses ++ [.tooShort] }
        else if b 0 ≠ 0x01 then { s with statuses := s.statuses ++ [.unexpectedReportId] }
        else { s with IS := inputRecord Config.touchVariant 1 b, statuses := s.statuses ++ [.ok] }))

/-- R112, R117: sticks and analog triggers. -/
def Obligations.DecinStickAndTriggerFields : Prop :=
  ∀ (s : State) (len : Nat) (b : Nat → Byte), InputAccepted s len b →
    ∃ t, exec (.decin len) s = .next t ∧
      t.IS.ls_x = b 1 ∧ t.IS.ls_y = b 2 ∧ t.IS.rs_x = b 3 ∧ t.IS.rs_y = b 4 ∧
      t.IS.l2_analog = b 8 ∧ t.IS.r2_analog = b 9

/-- R113, R115, R116: the fourteen buttons and the frame counter. -/
def Obligations.DecinButtonFields : Prop :=
  ∀ (s : State) (len : Nat) (b : Nat → Byte), InputAccepted s len b →
    ∃ t, exec (.decin len) s = .next t ∧
      t.IS.square = (b 5).getLsbD 4 ∧ t.IS.cross = (b 5).getLsbD 5 ∧
      t.IS.circle = (b 5).getLsbD 6 ∧ t.IS.triangle = (b 5).getLsbD 7 ∧
      t.IS.l1 = (b 6).getLsbD 0 ∧ t.IS.r1 = (b 6).getLsbD 1 ∧ t.IS.l2 = (b 6).getLsbD 2 ∧
      t.IS.r2 = (b 6).getLsbD 3 ∧ t.IS.share = (b 6).getLsbD 4 ∧ t.IS.options = (b 6).getLsbD 5 ∧
      t.IS.l3 = (b 6).getLsbD 6 ∧ t.IS.r3 = (b 6).getLsbD 7 ∧
      t.IS.ps = (b 7).getLsbD 0 ∧ t.IS.tpad = (b 7).getLsbD 1 ∧ t.IS.frame.toNat = (b 7).toNat / 4

/-- R80, R114: the D-pad, all sixteen raw nibbles. -/
def Obligations.DecinDpadField : Prop :=
  ∀ (s : State) (len : Nat) (b : Nat → Byte), InputAccepted s len b →
    ∃ t, exec (.decin len) s = .next t ∧
      t.IS.dpad = (match (b 5).toNat % 16 with
        | 0 => .north | 1 => .ne | 2 => .east | 3 => .se | 4 => .south | 5 => .sw | 6 => .west | 7 => .nw
        | _ => .neutral) ∧
      t.IS.dpad.code = if (b 5).toNat % 16 ≤ 7 then (b 5).toNat % 16 else 8

/-- R118, R119, R120: the timestamp, unsigned, and the six samples, signed, all little-endian. -/
def Obligations.DecinTimestampAndSampleFields : Prop :=
  ∀ (s : State) (len : Nat) (b : Nat → Byte), InputAccepted s len b →
    ∃ t, exec (.decin len) s = .next t ∧
      t.IS.timestamp.toNat = pairNumber b 10 ∧
      t.IS.gyro_pitch.toInt = sext16 (pairNumber b 13) ∧ t.IS.gyro_yaw.toInt = sext16 (pairNumber b 15) ∧
      t.IS.gyro_roll.toInt = sext16 (pairNumber b 17) ∧ t.IS.accel_x.toInt = sext16 (pairNumber b 19) ∧
      t.IS.accel_y.toInt = sext16 (pairNumber b 21) ∧ t.IS.accel_z.toInt = sext16 (pairNumber b 23)

/-- R121: battery and peripherals; the level is not clamped. -/
def Obligations.DecinBatteryFields : Prop :=
  ∀ (s : State) (len : Nat) (b : Nat → Byte), InputAccepted s len b →
    ∃ t, exec (.decin len) s = .next t ∧
      t.IS.bat_level.toNat = (b 30).toNat % 16 ∧ t.IS.bat_cable = (b 30).getLsbD 4 ∧
      t.IS.bat_headphones = (b 30).getLsbD 5 ∧ t.IS.bat_mic = (b 30).getLsbD 6

/-- R122, R123: the touch region under whichever variant the block is built with. -/
def Obligations.DecinTouchFields : Prop :=
  ∀ (s : State) (len : Nat) (b : Nat → Byte), InputAccepted s len b →
    ∃ t, exec (.decin len) s = .next t ∧
      match Config.touchVariant with
      | .A => t.IS.tp_count = 0 ∧ t.IS.tp_counter = b 33 ∧ IsFinger t.IS.f0 b 34 ∧ IsFinger t.IS.f1 b 38
      | .B => t.IS.tp_count = b 33 ∧ t.IS.tp_counter = b 34 ∧ IsFinger t.IS.f0 b 35 ∧ IsFinger t.IS.f1 b 39

/-- R127: decoding the same bytes twice gives the same `IS`. -/
def Obligations.DecinIsIdempotent : Prop :=
  ∀ (s : State) (len : Nat) (b : Nat → Byte), InputAccepted s len b →
    ∃ t u, exec (.decin len) s = .next t ∧ exec (.decin len) t = .next u ∧ u.IS = t.IS ∧
      u.statuses = s.statuses ++ [.ok, .ok]

/-- R128: the corrected "no input" buffer decodes to the reset state; the document's scenario does not. -/
def Obligations.NoInputBufferDecodesToReset : Prop :=
  (∀ (s : State) (x : Byte), 0x08 ≤ x.toNat → x.toNat ≤ 0x0F →
    Holds s.RXBUF 64 (noInputReport Config.touchVariant x) →
      exec (.decin 64) s = .next { s with IS := State.reset.IS, statuses := s.statuses ++ [.ok] }) ∧
  (∀ s : State, Holds s.RXBUF 64 scenarioReport →
    exec (.decin 64) s = .next { s with
      IS := { State.reset.IS with
        dpad := .north
        f0 := { State.reset.IS.f0 with active := true }
        f1 := { State.reset.IS.f1 with active := true } }
      statuses := s.statuses ++ [.ok] })

/-- R90: bytes and bits in ignored places have no effect, neither on DECIN nor on DECCAL. -/
def Obligations.IgnoredBytesHaveNoEffect : Prop :=
  ∀ (s t : State) (len : Nat) (m : Memory),
    ((∀ a, ¬ inputIgnored Config.touchVariant a → a ≠ 30 → m.read a = s.RXBUF.read a) →
      (m.read 30).map (fun x => x.toNat % 128) = (s.RXBUF.read 30).map (fun x => x.toNat % 128) →
      exec (.decin len) s = .next t → exec (.decin len) { s with RXBUF := m } = .next { t with RXBUF := m }) ∧
    ((∀ a, a < 35 → m.read a = s.RXBUF.read a) →
      exec (.deccal len) s = .next t → exec (.deccal len) { s with RXBUF := m } = .next { t with RXBUF := m })

/-! ### Errors -/

/-- R231: TooShort, when it is raised, by which operations, and that no byte of `RXBUF` is read: the answer is the
same whatever `RXBUF` holds, even nothing. -/
def Obligations.TooShortIsRaisedByLengthAlone : Prop :=
  Status.code .tooShort = 1 ∧
  (∀ (s : State) (len : Nat), len < 64 →
    exec (.decin len) s = .next { s with statuses := s.statuses ++ [.tooShort] }) ∧
  (∀ (s : State) (len : Nat), len < 37 →
    exec (.deccal len) s = .next { s with statuses := s.statuses ++ [.tooShort] }) ∧
  (∀ (i : Instr) (s t : State), exec i s = .next t → t.statuses = s.statuses ++ [.tooShort] →
    (∃ len, len < 64 ∧ i = .decin len) ∨ (∃ len, len < 37 ∧ i = .deccal len))

/-- R232: UnexpectedReportId, when it is raised, by which operations, and that only byte 0 is read. -/
def Obligations.UnexpectedReportIdIsRaisedByTag : Prop :=
  Status.code .unexpectedReportId = 2 ∧
  (∀ (s : State) (len : Nat) (x : Byte), 64 ≤ len → s.RXBUF.read 0 = some x → x ≠ 0x01 →
    exec (.decin len) s = .next { s with statuses := s.statuses ++ [.unexpectedReportId] }) ∧
  (∀ (s : State) (len : Nat) (x : Byte), 37 ≤ len → s.RXBUF.read 0 = some x → x ≠ 0x02 →
    exec (.deccal len) s = .next { s with statuses := s.statuses ++ [.unexpectedReportId] }) ∧
  (∀ (i : Instr) (s t : State), exec i s = .next t → t.statuses = s.statuses ++ [.unexpectedReportId] →
    ∃ x len, s.RXBUF.read 0 = some x ∧
      ((i = .decin len ∧ 64 ≤ len ∧ x ≠ 0x01) ∨ (i = .deccal len ∧ 37 ≤ len ∧ x ≠ 0x02)))

/-- R235: an error returns its status and changes nothing else, whatever the command. -/
def Obligations.ErrorChangesNothing : Prop :=
  ∀ (s t : State) (c : Command) (rest : List HostAction) (st : Status),
    s.pending = .command c :: rest → step s = .next t → t.statuses = s.statuses ++ [st] → st ≠ .ok →
      t = { s with pending := rest, statuses := s.statuses ++ [st] }

/-- R230, R74: every command ends by returning exactly one status, one of the four. (A `len` beyond `RX_CAP` is no
command, R70; the host declares valid only bytes it has placed, R41.) -/
def Obligations.EveryCommandReturnsOneStatus : Prop :=
  Status.code .ok = 0 ∧ Status.code .tooShort = 1 ∧ Status.code .unexpectedReportId = 2 ∧
    Status.code .illegalOp = 3 ∧
  (∀ (s : State) (c : Command) (rest : List HostAction),
    s.pending = .command c :: rest → HostAction.lawful s.RXBUF (.command c) →
      ∃ t st, step s = .next t ∧ t.statuses = s.statuses ++ [st]) ∧
  (∀ (s t : State) (c : Command) (rest : List HostAction),
    s.pending = .command c :: rest → step s = .next t → ∃ st, t.statuses = s.statuses ++ [st])

/-- R236: the next command is accepted as after any other, and the statuses returned so far have no influence on it:
with any other record of statuses it returns the same status and does the same. -/
def Obligations.StatusesInfluenceNothing : Prop :=
  ∀ (s t : State) (c : Command) (rest : List HostAction) (old : List Status),
    s.pending = .command c :: rest → step s = .next t →
      ∃ st, t.statuses = s.statuses ++ [st] ∧
        step { s with statuses := old } = .next { t with statuses := old ++ [st] }

/-! ### LDOUT and ENCOUT -/

/-- R150: LDOUT. -/
def Obligations.LdoutLoadsOutputState : Prop :=
  (∀ c : Command, c.op = 0x05 →
    decode c = .ok (.ldout c.arg[0] c.arg[1] c.arg[2] c.arg[3] c.arg[4] c.arg[5] c.arg[6])) ∧
  (∀ (s : State) (heavy light r g b on' off : Byte),
    exec (.ldout heavy light r g b on' off) s =
      .next { s with
        OS := { heavy := heavy, light := light, led_r := r, led_g := g, led_b := b, flash_on := on', flash_off := off }
        statuses := s.statuses ++ [.ok] })

/-- R86, R151, R153: ENCOUT writes the 32 bytes of the output report and nothing else; outside indices 0 to 31
`TXBUF` reads as before. -/
def Obligations.EncoutWritesOutputReport : Prop :=
  (∀ c : Command, c.op = 0x02 → decode c = .ok .encout) ∧
  (∀ s : State, ∃ m : Memory,
    exec .encout s = .next { s with TXBUF := m, statuses := s.statuses ++ [.ok] } ∧
    m.read 0 = some 0x05 ∧ m.read 1 = some 0x07 ∧ m.read 2 = some 0x04 ∧ m.read 3 = some 0x00 ∧
    m.read 4 = some s.OS.light ∧ m.read 5 = some s.OS.heavy ∧ m.read 6 = some s.OS.led_r ∧
    m.read 7 = some s.OS.led_g ∧ m.read 8 = some s.OS.led_b ∧ m.read 9 = some s.OS.flash_on ∧
    m.read 10 = some s.OS.flash_off ∧ (∀ a, 11 ≤ a → a < 32 → m.read a = some 0x00) ∧
    (∀ a, 32 ≤ a → m.read a = s.TXBUF.read a))

/-- R155: the seven values stand at their fixed positions after ENCOUT, and two output states that are encoded to the
same bytes are the same. -/
def Obligations.OutputRoundTrip : Prop :=
  (∀ s : State, ∃ t, exec .encout s = .next t ∧
    t.TXBUF.read 4 = some t.OS.light ∧ t.TXBUF.read 5 = some t.OS.heavy ∧ t.TXBUF.read 6 = some t.OS.led_r ∧
    t.TXBUF.read 7 = some t.OS.led_g ∧ t.TXBUF.read 8 = some t.OS.led_b ∧ t.TXBUF.read 9 = some t.OS.flash_on ∧
    t.TXBUF.read 10 = some t.OS.flash_off) ∧
  (∀ o o' : OutputState, encodeOutput o = encodeOutput o' → o = o')

/-- R95: ENCODE is LDOUT followed by ENCOUT. -/
def Obligations.EncodePseudoInstructionRuns : Prop :=
  ∀ (s : State) (rest : List HostAction) (heavy light r g b on' off : Byte),
    s.pending = expandLine (.encode heavy light r g b on' off) ++ rest →
      ∃ t u, step s = .next t ∧ step t = .next u ∧
        u.OS = { heavy := heavy, light := light, led_r := r, led_g := g, led_b := b, flash_on := on', flash_off := off } ∧
        (∀ a, (h : a < 32) → u.TXBUF.read a = some (encodeOutput u.OS)[a]) ∧
        u.IS = s.IS ∧ u.CAL = s.CAL ∧ u.CI = s.CI ∧ u.RXBUF = s.RXBUF ∧
        u.pending = rest ∧ u.statuses = s.statuses ++ [.ok, .ok]

/-- R40: `TXBUF` holds no value after reset and its read before the first ENCOUT is refused; ENCOUT gives every one of
the 32 indices its value. -/
def Obligations.TxbufReadNeedsEncout : Prop :=
  (∀ a, a < 32 → hostReadTx a State.reset = .refused .txbufHoldsNoValue) ∧
  (∀ (s : State) (a : Nat), a < 32 → s.TXBUF.read a = none → hostReadTx a s = .refused .txbufHoldsNoValue) ∧
  (∀ s : State, ∃ t, exec .encout s = .next t ∧
    ∀ a, (h : a < 32) → hostReadTx a t = .next (encodeOutput s.OS)[a])

/-! ### DECCAL -/

/-- R170: DECCAL, its encoding, its three answers and what it writes. -/
def Obligations.DeccalDecodesCalibrationRecord : Prop :=
  (∀ c : Command, c.op = 0x03 → c.len ≤ Config.rxCap → decode c = .ok (.deccal c.len)) ∧
  (∀ (s : State) (len : Nat) (b : Nat → Byte), Holds s.RXBUF len b →
    exec (.deccal len) s =
      .next (if len < 37 then { s with statuses := s.statuses ++ [.tooShort] }
        else if b 0 ≠ 0x02 then { s with statuses := s.statuses ++ [.unexpectedReportId] }
        else { s with CAL := calibrationRecord b, statuses := s.statuses ++ [.ok] }))

/-- R172 to R175: the seventeen constants, whether or not the record is valid (R178). -/
def Obligations.DeccalConstantFields : Prop :=
  ∀ (s : State) (len : Nat) (b : Nat → Byte), RecordAccepted s len b →
    ∃ t, exec (.deccal len) s = .next t ∧ t.statuses = s.statuses ++ [.ok] ∧
      t.CAL.gyro_pitch_bias.toInt = sext16 (pairNumber b 1) ∧
      t.CAL.gyro_yaw_bias.toInt = sext16 (pairNumber b 3) ∧
      t.CAL.gyro_roll_bias.toInt = sext16 (pairNumber b 5) ∧
      t.CAL.gyro_pitch_plus.toInt = sext16 (pairNumber b 7) ∧
      t.CAL.gyro_pitch_minus.toInt = sext16 (pairNumber b 9) ∧
      t.CAL.gyro_yaw_plus.toInt = sext16 (pairNumber b 11) ∧
      t.CAL.gyro_yaw_minus.toInt = sext16 (pairNumber b 13) ∧
      t.CAL.gyro_roll_plus.toInt = sext16 (pairNumber b 15) ∧
      t.CAL.gyro_roll_minus.toInt = sext16 (pairNumber b 17) ∧
      t.CAL.gyro_speed_plus.toInt = sext16 (pairNumber b 19) ∧
      t.CAL.gyro_speed_minus.toInt = sext16 (pairNumber b 21) ∧
      t.CAL.accel_x_plus.toInt = sext16 (pairNumber b 23) ∧
      t.CAL.accel_x_minus.toInt = sext16 (pairNumber b 25) ∧
      t.CAL.accel_y_plus.toInt = sext16 (pairNumber b 27) ∧
      t.CAL.accel_y_minus.toInt = sext16 (pairNumber b 29) ∧
      t.CAL.accel_z_plus.toInt = sext16 (pairNumber b 31) ∧
      t.CAL.accel_z_minus.toInt = sext16 (pairNumber b 33)

/-- R176: the record is valid exactly when all six plus/minus differences are non-zero; and what follows from it: exactly
when all six pairs differ. -/
def Obligations.DeccalValidityMeansPairsDiffer : Prop :=
  ∀ (s : State) (len : Nat) (b : Nat → Byte), RecordAccepted s len b →
    ∃ t, exec (.deccal len) s = .next t ∧
      (t.CAL.valid = true ↔
        (t.CAL.gyro_pitch_plus.toInt - t.CAL.gyro_pitch_minus.toInt ≠ 0 ∧
          t.CAL.gyro_yaw_plus.toInt - t.CAL.gyro_yaw_minus.toInt ≠ 0 ∧
          t.CAL.gyro_roll_plus.toInt - t.CAL.gyro_roll_minus.toInt ≠ 0 ∧
          t.CAL.accel_x_plus.toInt - t.CAL.accel_x_minus.toInt ≠ 0 ∧
          t.CAL.accel_y_plus.toInt - t.CAL.accel_y_minus.toInt ≠ 0 ∧
          t.CAL.accel_z_plus.toInt - t.CAL.accel_z_minus.toInt ≠ 0)) ∧
      (t.CAL.valid = true ↔
        (t.CAL.gyro_pitch_plus ≠ t.CAL.gyro_pitch_minus ∧ t.CAL.gyro_yaw_plus ≠ t.CAL.gyro_yaw_minus ∧
          t.CAL.gyro_roll_plus ≠ t.CAL.gyro_roll_minus ∧ t.CAL.accel_x_plus ≠ t.CAL.accel_x_minus ∧
          t.CAL.accel_y_plus ≠ t.CAL.accel_y_minus ∧ t.CAL.accel_z_plus ≠ t.CAL.accel_z_minus))

/-! ### CALIB -/

/-- R190: CALIB. -/
def Obligations.CalibReplacesCi : Prop :=
  (∀ c : Command, c.op = 0x04 → decode c = .ok .calib) ∧
  (∀ s : State,
    exec .calib s = .next { s with
      CI := calibrate
        { gyro_pitch := s.IS.gyro_pitch, gyro_yaw := s.IS.gyro_yaw, gyro_roll := s.IS.gyro_roll
          accel_x := s.IS.accel_x, accel_y := s.IS.accel_y, accel_z := s.IS.accel_z } s.CAL
      statuses := s.statuses ++ [.ok] })

/-- R193: the nominal conversion, with no constant of `CAL` read: the gyro divides by the binary64 number nearest 16.4 and
is correctly rounded, the accelerometer result is exact; the rule's own examples. -/
def Obligations.CalibNominalConversion : Prop :=
  RoundedNearestEven 0x4030666666666666 (164 / 10) ∧
  (∀ s : State, s.CAL.valid = false →
    ∃ t, exec .calib s = .next t ∧
      t.CI.gyro_pitch = fdiv (i2f s.IS.gyro_pitch.toInt) 0x4030666666666666 ∧
      t.CI.gyro_yaw = fdiv (i2f s.IS.gyro_yaw.toInt) 0x4030666666666666 ∧
      t.CI.gyro_roll = fdiv (i2f s.IS.gyro_roll.toInt) 0x4030666666666666 ∧
      t.CI.accel_x = fdiv (i2f s.IS.accel_x.toInt) 0x40C0000000000000 ∧
      t.CI.accel_y = fdiv (i2f s.IS.accel_y.toInt) 0x40C0000000000000 ∧
      t.CI.accel_z = fdiv (i2f s.IS.accel_z.toInt) 0x40C0000000000000 ∧
      RoundedNearestEven t.CI.gyro_pitch (s.IS.gyro_pitch.toInt / f64Value 0x4030666666666666) ∧
      RoundedNearestEven t.CI.gyro_yaw (s.IS.gyro_yaw.toInt / f64Value 0x4030666666666666) ∧
      RoundedNearestEven t.CI.gyro_roll (s.IS.gyro_roll.toInt / f64Value 0x4030666666666666) ∧
      f64Value t.CI.accel_x = s.IS.accel_x.toInt / 8192 ∧ f64Value t.CI.accel_y = s.IS.accel_y.toInt / 8192 ∧
      f64Value t.CI.accel_z = s.IS.accel_z.toInt / 8192) ∧
  fdiv (i2f 1640) 0x4030666666666666 = 0x4059000000000001 ∧
  fdiv (i2f 0) 0x4030666666666666 = 0x0000000000000000 ∧
  fdiv (i2f 0) 0x40C0000000000000 = 0x0000000000000000

/-- R194, R199: the calibrated gyro formula, with its guard, on the three axes. -/
def Obligations.CalibGyroFormula : Prop :=
  ∀ s : State, s.CAL.valid = true →
    ∃ t, exec .calib s = .next t ∧
      t.CI.gyro_pitch =
        (if (s.CAL.gyro_pitch_plus.toInt - s.CAL.gyro_pitch_minus.toInt).natAbs = 0 then i2f s.IS.gyro_pitch.toInt
        else fdiv (i2f ((s.IS.gyro_pitch.toInt - s.CAL.gyro_pitch_bias.toInt) *
            (s.CAL.gyro_speed_plus.toInt + s.CAL.gyro_speed_minus.toInt)))
          (i2f (s.CAL.gyro_pitch_plus.toInt - s.CAL.gyro_pitch_minus.toInt).natAbs)) ∧
      t.CI.gyro_yaw =
        (if (s.CAL.gyro_yaw_plus.toInt - s.CAL.gyro_yaw_minus.toInt).natAbs = 0 then i2f s.IS.gyro_yaw.toInt
        else fdiv (i2f ((s.IS.gyro_yaw.toInt - s.CAL.gyro_yaw_bias.toInt) *
            (s.CAL.gyro_speed_plus.toInt + s.CAL.gyro_speed_minus.toInt)))
          (i2f (s.CAL.gyro_yaw_plus.toInt - s.CAL.gyro_yaw_minus.toInt).natAbs)) ∧
      t.CI.gyro_roll =
        (if (s.CAL.gyro_roll_plus.toInt - s.CAL.gyro_roll_minus.toInt).natAbs = 0 then i2f s.IS.gyro_roll.toInt
        else fdiv (i2f ((s.IS.gyro_roll.toInt - s.CAL.gyro_roll_bias.toInt) *
            (s.CAL.gyro_speed_plus.toInt + s.CAL.gyro_speed_minus.toInt)))
          (i2f (s.CAL.gyro_roll_plus.toInt - s.CAL.gyro_roll_minus.toInt).natAbs))

/-- R196, R197, R199: the calibrated accelerometer formula, with its guard, on the three axes. -/
def Obligations.CalibAccelFormula : Prop :=
  ∀ s : State, s.CAL.valid = true →
    ∃ t, exec .calib s = .next t ∧
      t.CI.accel_x =
        (if (s.CAL.accel_x_plus.toInt - s.CAL.accel_x_minus.toInt).natAbs = 0 then i2f s.IS.accel_x.toInt
        else fdiv (i2f (s.IS.accel_x.toInt - (s.CAL.accel_x_plus.toInt + s.CAL.accel_x_minus.toInt).tdiv 2))
          (fdiv (i2f (s.CAL.accel_x_plus.toInt - s.CAL.accel_x_minus.toInt).natAbs) 0x4000000000000000)) ∧
      t.CI.accel_y =
        (if (s.CAL.accel_y_plus.toInt - s.CAL.accel_y_minus.toInt).natAbs = 0 then i2f s.IS.accel_y.toInt
        else fdiv (i2f (s.IS.accel_y.toInt - (s.CAL.accel_y_plus.toInt + s.CAL.accel_y_minus.toInt).tdiv 2))
          (fdiv (i2f (s.CAL.accel_y_plus.toInt - s.CAL.accel_y_minus.toInt).natAbs) 0x4000000000000000)) ∧
      t.CI.accel_z =
        (if (s.CAL.accel_z_plus.toInt - s.CAL.accel_z_minus.toInt).natAbs = 0 then i2f s.IS.accel_z.toInt
        else fdiv (i2f (s.IS.accel_z.toInt - (s.CAL.accel_z_plus.toInt + s.CAL.accel_z_minus.toInt).tdiv 2))
          (fdiv (i2f (s.CAL.accel_z_plus.toInt - s.CAL.accel_z_minus.toInt).natAbs) 0x4000000000000000))

/-- R199, its first half: where plus equals minus on an axis, that axis's output is the sample as a binary64 number,
exactly. That the other axes are computed normally is in the two formulas above. -/
def Obligations.CalibGuardReturnsSample : Prop :=
  ∀ s : State, s.CAL.valid = true →
    ∃ t, exec .calib s = .next t ∧
      (s.CAL.gyro_pitch_plus = s.CAL.gyro_pitch_minus → f64Value t.CI.gyro_pitch = s.IS.gyro_pitch.toInt) ∧
      (s.CAL.gyro_yaw_plus = s.CAL.gyro_yaw_minus → f64Value t.CI.gyro_yaw = s.IS.gyro_yaw.toInt) ∧
      (s.CAL.gyro_roll_plus = s.CAL.gyro_roll_minus → f64Value t.CI.gyro_roll = s.IS.gyro_roll.toInt) ∧
      (s.CAL.accel_x_plus = s.CAL.accel_x_minus → f64Value t.CI.accel_x = s.IS.accel_x.toInt) ∧
      (s.CAL.accel_y_plus = s.CAL.accel_y_minus → f64Value t.CI.accel_y = s.IS.accel_y.toInt) ∧
      (s.CAL.accel_z_plus = s.CAL.accel_z_minus → f64Value t.CI.accel_z = s.IS.accel_z.toInt)

/-- R205: each output is the exact quotient of the integers, rounded once to the nearest binary64 number, ties to even;
the nominal accelerometer output is exact. -/
def Obligations.CalibOutputsRoundedOnce : Prop :=
  (∀ s : State, s.CAL.valid = true →
    ∃ t, exec .calib s = .next t ∧
      (s.CAL.gyro_pitch_plus ≠ s.CAL.gyro_pitch_minus → RoundedNearestEven t.CI.gyro_pitch
        (((s.IS.gyro_pitch.toInt : ℚ) - s.CAL.gyro_pitch_bias.toInt) *
          (s.CAL.gyro_speed_plus.toInt + s.CAL.gyro_speed_minus.toInt) /
            |(s.CAL.gyro_pitch_plus.toInt : ℚ) - s.CAL.gyro_pitch_minus.toInt|)) ∧
      (s.CAL.gyro_yaw_plus ≠ s.CAL.gyro_yaw_minus → RoundedNearestEven t.CI.gyro_yaw
        (((s.IS.gyro_yaw.toInt : ℚ) - s.CAL.gyro_yaw_bias.toInt) *
          (s.CAL.gyro_speed_plus.toInt + s.CAL.gyro_speed_minus.toInt) /
            |(s.CAL.gyro_yaw_plus.toInt : ℚ) - s.CAL.gyro_yaw_minus.toInt|)) ∧
      (s.CAL.gyro_roll_plus ≠ s.CAL.gyro_roll_minus → RoundedNearestEven t.CI.gyro_roll
        (((s.IS.gyro_roll.toInt : ℚ) - s.CAL.gyro_roll_bias.toInt) *
          (s.CAL.gyro_speed_plus.toInt + s.CAL.gyro_speed_minus.toInt) /
            |(s.CAL.gyro_roll_plus.toInt : ℚ) - s.CAL.gyro_roll_minus.toInt|)) ∧
      (s.CAL.accel_x_plus ≠ s.CAL.accel_x_minus → RoundedNearestEven t.CI.accel_x
        (2 * ((s.IS.accel_x.toInt : ℚ) - ((s.CAL.accel_x_plus.toInt + s.CAL.accel_x_minus.toInt).tdiv 2 : ℤ)) /
          |(s.CAL.accel_x_plus.toInt : ℚ) - s.CAL.accel_x_minus.toInt|)) ∧
      (s.CAL.accel_y_plus ≠ s.CAL.accel_y_minus → RoundedNearestEven t.CI.accel_y
        (2 * ((s.IS.accel_y.toInt : ℚ) - ((s.CAL.accel_y_plus.toInt + s.CAL.accel_y_minus.toInt).tdiv 2 : ℤ)) /
          |(s.CAL.accel_y_plus.toInt : ℚ) - s.CAL.accel_y_minus.toInt|)) ∧
      (s.CAL.accel_z_plus ≠ s.CAL.accel_z_minus → RoundedNearestEven t.CI.accel_z
        (2 * ((s.IS.accel_z.toInt : ℚ) - ((s.CAL.accel_z_plus.toInt + s.CAL.accel_z_minus.toInt).tdiv 2 : ℤ)) /
          |(s.CAL.accel_z_plus.toInt : ℚ) - s.CAL.accel_z_minus.toInt|))) ∧
  (∀ s : State, s.CAL.valid = false →
    ∃ t, exec .calib s = .next t ∧
      RoundedNearestEven t.CI.gyro_pitch (s.IS.gyro_pitch.toInt / f64Value 0x4030666666666666) ∧
      RoundedNearestEven t.CI.gyro_yaw (s.IS.gyro_yaw.toInt / f64Value 0x4030666666666666) ∧
      RoundedNearestEven t.CI.gyro_roll (s.IS.gyro_roll.toInt / f64Value 0x4030666666666666) ∧
      f64Value t.CI.accel_x = s.IS.accel_x.toInt / 8192 ∧ f64Value t.CI.accel_y = s.IS.accel_y.toInt / 8192 ∧
      f64Value t.CI.accel_z = s.IS.accel_z.toInt / 8192)

/-- R39, R206: no output is a NaN, an infinity, -0.0 or subnormal, and each is within its range. -/
def Obligations.CalibOutputsCleanAndBounded : Prop :=
  ∀ s : State, ∃ t, exec .calib s = .next t ∧ t.CI.Clean ∧
    (s.CAL.valid = false →
      |f64Value t.CI.gyro_pitch| ≤ 1998.05 ∧ |f64Value t.CI.gyro_yaw| ≤ 1998.05 ∧
      |f64Value t.CI.gyro_roll| ≤ 1998.05 ∧ |f64Value t.CI.accel_x| ≤ 4 ∧
      |f64Value t.CI.accel_y| ≤ 4 ∧ |f64Value t.CI.accel_z| ≤ 4) ∧
    (s.CAL.valid = true →
      |f64Value t.CI.gyro_pitch| ≤ 4294901760 ∧ |f64Value t.CI.gyro_yaw| ≤ 4294901760 ∧
      |f64Value t.CI.gyro_roll| ≤ 4294901760 ∧ |f64Value t.CI.accel_x| ≤ 131070 ∧
      |f64Value t.CI.accel_y| ≤ 131070 ∧ |f64Value t.CI.accel_z| ≤ 131070)

/-- R195, the case of a zero multiplier: every calibrated gyro output is +0.0. -/
def Obligations.CalibZeroMultiplierGivesPlusZero : Prop :=
  ∀ s : State, s.CAL.valid = true → s.CAL.gyro_speed_plus.toInt + s.CAL.gyro_speed_minus.toInt = 0 →
    ∃ t, exec .calib s = .next t ∧
      (s.CAL.gyro_pitch_plus ≠ s.CAL.gyro_pitch_minus → t.CI.gyro_pitch = 0x0000000000000000) ∧
      (s.CAL.gyro_yaw_plus ≠ s.CAL.gyro_yaw_minus → t.CI.gyro_yaw = 0x0000000000000000) ∧
      (s.CAL.gyro_roll_plus ≠ s.CAL.gyro_roll_minus → t.CI.gyro_roll = 0x0000000000000000)

/-- R207: the sign of a calibrated output is the sign of its dividend, and exchanging an axis's plus and minus changes no
output. -/
def Obligations.CalibSignAndPairOrder : Prop :=
  (∀ s : State, s.CAL.valid = true →
    ∃ t, exec .calib s = .next t ∧
      (s.CAL.gyro_pitch_plus ≠ s.CAL.gyro_pitch_minus → SignType.sign (f64Value t.CI.gyro_pitch) =
        SignType.sign ((s.IS.gyro_pitch.toInt - s.CAL.gyro_pitch_bias.toInt) *
          (s.CAL.gyro_speed_plus.toInt + s.CAL.gyro_speed_minus.toInt))) ∧
      (s.CAL.gyro_yaw_plus ≠ s.CAL.gyro_yaw_minus → SignType.sign (f64Value t.CI.gyro_yaw) =
        SignType.sign ((s.IS.gyro_yaw.toInt - s.CAL.gyro_yaw_bias.toInt) *
          (s.CAL.gyro_speed_plus.toInt + s.CAL.gyro_speed_minus.toInt))) ∧
      (s.CAL.gyro_roll_plus ≠ s.CAL.gyro_roll_minus → SignType.sign (f64Value t.CI.gyro_roll) =
        SignType.sign ((s.IS.gyro_roll.toInt - s.CAL.gyro_roll_bias.toInt) *
          (s.CAL.gyro_speed_plus.toInt + s.CAL.gyro_speed_minus.toInt))) ∧
      (s.CAL.accel_x_plus ≠ s.CAL.accel_x_minus → SignType.sign (f64Value t.CI.accel_x) =
        SignType.sign (s.IS.accel_x.toInt - (s.CAL.accel_x_plus.toInt + s.CAL.accel_x_minus.toInt).tdiv 2)) ∧
      (s.CAL.accel_y_plus ≠ s.CAL.accel_y_minus → SignType.sign (f64Value t.CI.accel_y) =
        SignType.sign (s.IS.accel_y.toInt - (s.CAL.accel_y_plus.toInt + s.CAL.accel_y_minus.toInt).tdiv 2)) ∧
      (s.CAL.accel_z_plus ≠ s.CAL.accel_z_minus → SignType.sign (f64Value t.CI.accel_z) =
        SignType.sign (s.IS.accel_z.toInt - (s.CAL.accel_z_plus.toInt + s.CAL.accel_z_minus.toInt).tdiv 2))) ∧
  (∀ (s : State) (x : Axis), ∃ t, exec .calib s = .next t ∧
    exec .calib { s with CAL := s.CAL.swapPair x } = .next { t with CAL := s.CAL.swapPair x })

/-- R208: each output depends on its own sample and its own axis's constants, on `CAL.valid`, and for a gyro axis on
the two speed references, and on nothing else. -/
def Obligations.CalibAxesAreIndependent : Prop :=
  ∀ s s' : State, s.CAL.valid = s'.CAL.valid →
    ∃ t t', exec .calib s = .next t ∧ exec .calib s' = .next t' ∧
      (s.CAL.gyro_speed_plus = s'.CAL.gyro_speed_plus → s.CAL.gyro_speed_minus = s'.CAL.gyro_speed_minus →
        (s.IS.gyro_pitch = s'.IS.gyro_pitch → s.CAL.gyro_pitch_bias = s'.CAL.gyro_pitch_bias →
          s.CAL.gyro_pitch_plus = s'.CAL.gyro_pitch_plus → s.CAL.gyro_pitch_minus = s'.CAL.gyro_pitch_minus →
          t.CI.gyro_pitch = t'.CI.gyro_pitch) ∧
        (s.IS.gyro_yaw = s'.IS.gyro_yaw → s.CAL.gyro_yaw_bias = s'.CAL.gyro_yaw_bias →
          s.CAL.gyro_yaw_plus = s'.CAL.gyro_yaw_plus → s.CAL.gyro_yaw_minus = s'.CAL.gyro_yaw_minus →
          t.CI.gyro_yaw = t'.CI.gyro_yaw) ∧
        (s.IS.gyro_roll = s'.IS.gyro_roll → s.CAL.gyro_roll_bias = s'.CAL.gyro_roll_bias →
          s.CAL.gyro_roll_plus = s'.CAL.gyro_roll_plus → s.CAL.gyro_roll_minus = s'.CAL.gyro_roll_minus →
          t.CI.gyro_roll = t'.CI.gyro_roll)) ∧
      (s.IS.accel_x = s'.IS.accel_x → s.CAL.accel_x_plus = s'.CAL.accel_x_plus →
        s.CAL.accel_x_minus = s'.CAL.accel_x_minus → t.CI.accel_x = t'.CI.accel_x) ∧
      (s.IS.accel_y = s'.IS.accel_y → s.CAL.accel_y_plus = s'.CAL.accel_y_plus →
        s.CAL.accel_y_minus = s'.CAL.accel_y_minus → t.CI.accel_y = t'.CI.accel_y) ∧
      (s.IS.accel_z = s'.IS.accel_z → s.CAL.accel_z_plus = s'.CAL.accel_z_plus →
        s.CAL.accel_z_minus = s'.CAL.accel_z_minus → t.CI.accel_z = t'.CI.accel_z)

/-- R204: `i2f` is exact on every integer the engine converts, and `i2f(0)` is +0.0. -/
def Obligations.IntegerConversionIsExact : Prop :=
  i2f 0 = 0x0000000000000000 ∧
  ∀ n : ℤ, n.natAbs ≤ 4294901760 → f64Finite (i2f n) = true ∧ f64Value (i2f n) = n

/-! ### The whole machine -/

/-- R68: passing the report as a byte list gives the same result as placing it in `RXBUF`, for both decoders. -/
def Obligations.DecodersAgreeWithByteLists : Prop :=
  ∀ (s : State) (buf : List Byte),
    exec (.decin buf.length) { s with RXBUF := s.RXBUF.writeBytes 0 buf } =
      (match decodeInputBuffer Config.touchVariant buf with
      | .ok v => .next { s with
          RXBUF := s.RXBUF.writeBytes 0 buf, IS := v, statuses := s.statuses ++ [.ok] }
      | .error st => .next { s with
          RXBUF := s.RXBUF.writeBytes 0 buf, statuses := s.statuses ++ [st] }) ∧
    exec (.deccal buf.length) { s with RXBUF := s.RXBUF.writeBytes 0 buf } =
      (match decodeCalBuffer buf with
      | .ok v => .next { s with
          RXBUF := s.RXBUF.writeBytes 0 buf, CAL := v, statuses := s.statuses ++ [.ok] }
      | .error st => .next { s with
          RXBUF := s.RXBUF.writeBytes 0 buf, statuses := s.statuses ++ [st] })

/-- R46: the write columns of the access matrix: what each operation leaves unchanged. -/
def Obligations.OperationsWriteOnlyTheirOutputs : Prop :=
  ∀ (i : Instr) (s t : State), exec i s = .next t →
    t.RXBUF = s.RXBUF ∧ t.pending = s.pending ∧
    ((∀ len, i ≠ .decin len) ∨ t.statuses ≠ s.statuses ++ [.ok] → t.IS = s.IS) ∧
    ((∀ len, i ≠ .deccal len) ∨ t.statuses ≠ s.statuses ++ [.ok] → t.CAL = s.CAL) ∧
    ((∀ a b c d e f g, i ≠ .ldout a b c d e f g) → t.OS = s.OS) ∧
    (i ≠ .calib → t.CI = s.CI) ∧
    (i ≠ .encout → ∀ a, t.TXBUF.read a = s.TXBUF.read a) ∧
    (∀ a, 32 ≤ a → t.TXBUF.read a = s.TXBUF.read a)

/-- R46, R57: the read columns of the access matrix: from states that agree on what an operation reads, it returns
the same status and writes the same output. DECIN and DECCAL read `RXBUF` below `len` only. -/
def Obligations.OperationsReadOnlyTheirInputs : Prop :=
  (∀ (s s' t : State) (len : Nat), (∀ a, a < len → s'.RXBUF.read a = s.RXBUF.read a) →
    exec (.decin len) s = .next t →
      ∃ t', exec (.decin len) s' = .next t' ∧ ∃ st, t.statuses = s.statuses ++ [st] ∧
        t'.statuses = s'.statuses ++ [st] ∧ (st = .ok → t'.IS = t.IS)) ∧
  (∀ (s s' t : State) (len : Nat), (∀ a, a < len → s'.RXBUF.read a = s.RXBUF.read a) →
    exec (.deccal len) s = .next t →
      ∃ t', exec (.deccal len) s' = .next t' ∧ ∃ st, t.statuses = s.statuses ++ [st] ∧
        t'.statuses = s'.statuses ++ [st] ∧ (st = .ok → t'.CAL = t.CAL)) ∧
  (∀ s s' : State, s'.OS = s.OS →
    ∃ t t', exec .encout s = .next t ∧ exec .encout s' = .next t' ∧
      ∀ a, a < 32 → t'.TXBUF.read a = t.TXBUF.read a) ∧
  (∀ s s' : State, rawOf s'.IS = rawOf s.IS → s'.CAL = s.CAL →
    ∃ t t', exec .calib s = .next t ∧ exec .calib s' = .next t' ∧ t'.CI = t.CI)

/-- R57, R270: with every byte below `len` supplied, every operation answers a next state. -/
def Obligations.SuppliedOperationsComplete : Prop :=
  ∀ (i : Instr) (s : State),
    (∀ len, i = .decin len ∨ i = .deccal len → Supplied s.RXBUF len) →
      ∃ t st, exec i s = .next t ∧ t.statuses = s.statuses ++ [st]

/-- R41, R57: an operation stops only where it needs a byte below `len` that the host never supplied (the model's
choice of what happens then, log entry 6), and is never refused. -/
def Obligations.OperationsStopOnlyOnMissingBytes : Prop :=
  ∀ (i : Instr) (s : State),
    (∀ f, exec i s = .fault f → ∃ len a, (i = .decin len ∨ i = .deccal len) ∧ a < len ∧
      s.RXBUF.read a = none ∧ f = .rxByteNotSupplied a) ∧
    (∀ r, exec i s ≠ .refused r)

/-- R48: each register changes only through its own operation, or through reset (for `OS`, R35: through LDOUT); and so
`CAL.valid = 1` goes on implying that all six pairs differ, and the D-pad is at most 8. -/
def Obligations.RegistersChangeOnlyThroughTheirCommand : Prop :=
  ∀ s t : State, step s = .next t →
    (t.IS ≠ s.IS → ∃ rest, s.pending = .reset :: rest ∨ ∃ c, s.pending = .command c :: rest ∧ c.op = 0x01) ∧
    (t.CAL ≠ s.CAL → ∃ rest, s.pending = .reset :: rest ∨ ∃ c, s.pending = .command c :: rest ∧ c.op = 0x03) ∧
    (t.CI ≠ s.CI → ∃ rest, s.pending = .reset :: rest ∨ ∃ c, s.pending = .command c :: rest ∧ c.op = 0x04) ∧
    (t.TXBUF ≠ s.TXBUF → ∃ rest, s.pending = .reset :: rest ∨ ∃ c, s.pending = .command c :: rest ∧ c.op = 0x02) ∧
    (t.OS ≠ s.OS → ∃ rest, s.pending = .reset :: rest ∨ ∃ c, s.pending = .command c :: rest ∧ c.op = 0x05) ∧
    ((s.CAL.valid = true → pairsValid s.CAL = true) → t.CAL.valid = true → pairsValid t.CAL = true) ∧
    t.IS.dpad.code ≤ 8

/-- R61: (a) CALIB after a successful DECIN uses its samples, (b) CALIB after a successful DECCAL uses its
constants, (c) ENCOUT after LDOUT encodes its values. -/
def Obligations.LaterCommandsSeeEarlierWrites : Prop :=
  (∀ (s : State) (len : Nat) (b : Nat → Byte), InputAccepted s len b →
    ∃ t u, exec (.decin len) s = .next t ∧ exec .calib t = .next u ∧
      u.CI = calibrate
        { gyro_pitch := b 14 ++ b 13, gyro_yaw := b 16 ++ b 15, gyro_roll := b 18 ++ b 17
          accel_x := b 20 ++ b 19, accel_y := b 22 ++ b 21, accel_z := b 24 ++ b 23 } s.CAL) ∧
  (∀ (s : State) (len : Nat) (b : Nat → Byte), RecordAccepted s len b →
    ∃ t u, exec (.deccal len) s = .next t ∧ exec .calib t = .next u ∧
      u.CI = calibrate (rawOf s.IS) (calibrationRecord b)) ∧
  (∀ (s : State) (heavy light r g b on' off : Byte),
    ∃ t u, exec (.ldout heavy light r g b on' off) s = .next t ∧ exec .encout t = .next u ∧
      u.TXBUF.read 4 = some light ∧ u.TXBUF.read 5 = some heavy ∧ u.TXBUF.read 6 = some r ∧
      u.TXBUF.read 7 = some g ∧ u.TXBUF.read 8 = some b ∧ u.TXBUF.read 9 = some on' ∧
      u.TXBUF.read 10 = some off)

/-- R270, R271: while the host does only what it may do, the block never stops and every command terminates. -/
def Obligations.LawfulHostNeverStopsBlock : Prop :=
  ∀ s : State, (∀ x rest, s.pending = x :: rest → x.lawful s.RXBUF) →
    ∃ t, step s = .next t ∧ t.pending = s.pending.tail

/-- The invariant of the block is kept by every step: canonical buffers, `RXBUF` below `RX_CAP`, `TXBUF` empty or one
whole report (R40, R66), `CAL.valid` exactly when the pairs differ (R48), `CI` clean (R39). -/
def Obligations.StepKeepsInvariant : Prop :=
  ∀ s t : State, s.Inv → step s = .next t → t.Inv

/-- The invariant holds after power-on. -/
def Obligations.PowerOnHasInvariant : Prop := State.reset.Inv
end

