-- ==== Sys2Proof/Laws/Decode.lean ====
section
/-! SUPPORT. The decoder and the encoder: what a decoded command was, and that the two readings of a command, as a
record and as a number, agree. -/

namespace Sys2Proof

theorem withLen_ok {len : Nat} {mk : Nat → Instr} (h : len ≤ Config.rxCap) : withLen len mk = .ok (mk len) := by
  simp [withLen, h]

/-- Only an `op` of 1 to 5 decodes (R71, R73). -/
theorem decode_ok_op {c : Command} {i : Instr} (h : decode c = .ok i) : 1 ≤ c.op.toNat ∧ c.op.toNat ≤ 5 := by
  unfold decode at h
  split at h <;> first | (cases h; done) | omega

/-- What the decoder accepts is well formed (R70). -/
theorem decode_wellFormed {c : Command} {i : Instr} (h : decode c = .ok i) : i.wellFormed = true := by
  unfold decode at h
  split at h
  · unfold withLen at h; split at h
    · rename_i hl; cases h; simpa [Instr.wellFormed] using hl
    · cases h
  · cases h; rfl
  · unfold withLen at h; split at h
    · rename_i hl; cases h; simpa [Instr.wellFormed] using hl
    · cases h
  · cases h; rfl
  · cases h; rfl
  · cases h

theorem byteAt_toNat (w lo : Nat) : (byteAt w lo).toNat = w / 2 ^ lo % 256 := by
  rw [byteAt, BitVec.toNat_ofNat]

theorem byteAt_eq {w lo : Nat} {b : Byte} (h : w / 2 ^ lo % 256 = b.toNat) : byteAt w lo = b :=
  BitVec.eq_of_toNat_eq (by rw [byteAt_toNat, h])

/-- A vector of seven is its seven elements. -/
theorem vector7_eq (v : Vector Byte 7) : v = #v[v[0], v[1], v[2], v[3], v[4], v[5], v[6]] := by
  ext i hi
  interval_cases i <;> rfl

/-- Reading a number of the form of `Command.toWord` gives its parts. -/
theorem ofWord_parts (op a0 a1 a2 a3 a4 a5 a6 : Byte) (len w : Nat)
    (hw : w = op.toNat + 2 ^ 8 * a0.toNat + 2 ^ 16 * a1.toNat + 2 ^ 24 * a2.toNat + 2 ^ 32 * a3.toNat
      + 2 ^ 40 * a4.toNat + 2 ^ 48 * a5.toNat + 2 ^ 56 * a6.toNat + 2 ^ 64 * len) :
    Command.ofWord w = { op := op, len := len, arg := #v[a0, a1, a2, a3, a4, a5, a6] } := by
  have h0 := a0.isLt; have h1 := a1.isLt; have h2 := a2.isLt; have h3 := a3.isLt
  have h4 := a4.isLt; have h5 := a5.isLt; have h6 := a6.isLt; have ho := op.isLt
  have b0 : byteAt w 0 = op := byteAt_eq (by omega)
  have b1 : byteAt w 8 = a0 := byteAt_eq (by omega)
  have b2 : byteAt w 16 = a1 := byteAt_eq (by omega)
  have b3 : byteAt w 24 = a2 := byteAt_eq (by omega)
  have b4 : byteAt w 32 = a3 := byteAt_eq (by omega)
  have b5 : byteAt w 40 = a4 := byteAt_eq (by omega)
  have b6 : byteAt w 48 = a5 := byteAt_eq (by omega)
  have b7 : byteAt w 56 = a6 := byteAt_eq (by omega)
  have hl : w / 2 ^ 64 = len := by omega
  rw [Command.ofWord, b0, b1, b2, b3, b4, b5, b6, b7, hl]

/-- Reading a command's number gives the command back. -/
theorem ofWord_toWord (c : Command) : Command.ofWord c.toWord = c := by
  rw [ofWord_parts c.op c.arg[0] c.arg[1] c.arg[2] c.arg[3] c.arg[4] c.arg[5] c.arg[6] c.len c.toWord rfl,
    ← vector7_eq]

end Sys2Proof
end

