-- ==== Sys2Proof/Laws/Rounding.lean ====
section
/-! SUPPORT. That `roundRatio` is the correctly rounded quotient (R205): the integer rounding, the exponent of a
ratio, the value of the pattern, and that no finite binary64 number lies nearer. -/

namespace Sys2Proof.Machine

/-! ### The integer rounding -/

/-- The integer chosen is nearest, and even where two are nearest. -/
theorem roundHalfEven_nearest (n d : Nat) (hd : 0 < d) (j : ℤ) :
    |(roundHalfEven n d : ℚ) - n / d| ≤ |(j : ℚ) - n / d| ∧
      (|(j : ℚ) - n / d| = |(roundHalfEven n d : ℚ) - n / d| → j ≠ roundHalfEven n d →
        roundHalfEven n d % 2 = 0) := by
  have hd' : (0 : ℚ) < d := by exact_mod_cast hd
  obtain ⟨q, hq⟩ : ∃ q, n / d = q := ⟨_, rfl⟩
  obtain ⟨r, hr⟩ : ∃ r, n % d = r := ⟨_, rfl⟩
  have hn : n = d * q + r := by rw [← hq, ← hr, Nat.div_add_mod]
  have hrd : r < d := hr ▸ Nat.mod_lt n hd
  have ht : (n : ℚ) / d = q + r / d := by
    rw [hn]; push_cast; field_simp
  obtain ⟨f, hf⟩ : ∃ f : ℚ, (r : ℚ) / d = f := ⟨_, rfl⟩
  have hfr : (r : ℚ) = f * d := by rw [← hf]; field_simp
  have hf0 : 0 ≤ f := by rw [← hf]; positivity
  have hf1 : f < 1 := by rw [← hf, div_lt_one hd']; exact_mod_cast hrd
  rw [ht, hf]
  have hj : (j : ℚ) ≤ q ∨ (q : ℚ) + 1 ≤ j := by
    rcases le_or_gt j q with h | h
    · left; exact_mod_cast h
    · right; exact_mod_cast h
  have key : ∀ k : ℕ, roundHalfEven n d = k → (k : ℚ) = q ∧ (f < 1 / 2 ∨ (f = 1 / 2 ∧ k % 2 = 0)) ∨
      (k : ℚ) = q + 1 ∧ (1 / 2 < f ∨ (f = 1 / 2 ∧ k % 2 = 0)) := by
    intro k hk
    simp only [roundHalfEven, hq, hr] at hk
    split at hk
    · rename_i h
      refine .inl ⟨by rw [← hk], .inl ?_⟩
      have : (2 : ℚ) * r < d := by exact_mod_cast h
      rw [hfr] at this; nlinarith
    · split at hk
      · rename_i h
        refine .inr ⟨by rw [← hk]; push_cast; ring, .inl ?_⟩
        have : (d : ℚ) < 2 * r := by exact_mod_cast h
        rw [hfr] at this; nlinarith
      · rename_i h1 h2
        have heq : (2 : ℚ) * r = d := by
          have : 2 * r = d := by omega
          exact_mod_cast this
        have hfh : f = 1 / 2 := by
          have h3 : (f - 1 / 2) * d = 0 := by rw [hfr] at heq; linarith
          rcases mul_eq_zero.mp h3 with h | h
          · linarith
          · linarith
        split at hk
        · rename_i he
          exact .inl ⟨by rw [← hk], .inr ⟨hfh, by omega⟩⟩
        · rename_i he
          exact .inr ⟨by rw [← hk]; push_cast; ring, .inr ⟨hfh, by omega⟩⟩
  obtain ⟨k, hk⟩ : ∃ k, roundHalfEven n d = k := ⟨_, rfl⟩
  rw [hk]
  rcases key k hk with ⟨hkq, hcase⟩ | ⟨hkq, hcase⟩
  · have hle : f ≤ 1 / 2 := by rcases hcase with h | ⟨h, _⟩ <;> linarith
    have habs : |(k : ℚ) - (q + f)| = f := by rw [hkq, show (q : ℚ) - (q + f) = -f by ring, abs_neg, abs_of_nonneg hf0]
    rw [habs]
    refine ⟨?_, fun htie hne => ?_⟩
    · rcases hj with h | h
      · rw [abs_of_nonpos (by linarith)]; linarith
      · rw [abs_of_nonneg (by linarith)]; linarith
    · rcases hcase with h | h
      · exfalso
        rcases hj with h' | h'
        · rw [abs_of_nonpos (by linarith)] at htie
          exact hne (by have : (j : ℚ) = k := by rw [hkq]; linarith
                        exact_mod_cast this)
        · rw [abs_of_nonneg (by linarith)] at htie; linarith
      · exact h.2
  · have hge : 1 / 2 ≤ f := by rcases hcase with h | ⟨h, _⟩ <;> linarith
    have habs : |(k : ℚ) - (q + f)| = 1 - f := by
      rw [hkq, show (q : ℚ) + 1 - (q + f) = 1 - f by ring, abs_of_nonneg (by linarith)]
    rw [habs]
    refine ⟨?_, fun htie hne => ?_⟩
    · rcases hj with h | h
      · rw [abs_of_nonpos (by linarith)]; linarith
      · rw [abs_of_nonneg (by linarith)]; linarith
    · rcases hcase with h | h
      · exfalso
        rcases hj with h' | h'
        · rw [abs_of_nonpos (by linarith)] at htie; linarith
        · rw [abs_of_nonneg (by linarith)] at htie
          exact hne (by have : (j : ℚ) = k := by rw [hkq]; linarith
                        exact_mod_cast this)
      · exact h.2

theorem roundHalfEven_le (n d k : Nat) (hd : 0 < d) (h : n ≤ k * d) : roundHalfEven n d ≤ k := by
  have hq : n / d ≤ k := by
    calc n / d ≤ k * d / d := Nat.div_le_div_right h
      _ = k := Nat.mul_div_cancel k hd
  simp only [roundHalfEven]
  have hdm := Nat.div_add_mod n d
  have hlt := Nat.mod_lt n hd
  rcases Nat.lt_or_ge (n / d) k with hlt' | hge
  · split
    · omega
    · split
      · omega
      · split <;> omega
  · have hqk : n / d = k := by omega
    have hr : n % d = 0 := by rw [hqk, Nat.mul_comm] at hdm; omega
    rw [hr, if_pos (by omega)]; exact hq

theorem le_roundHalfEven (n d k : Nat) (hd : 0 < d) (h : k * d ≤ n) : k ≤ roundHalfEven n d := by
  have hq : k ≤ n / d := (Nat.le_div_iff_mul_le hd).mpr h
  simp only [roundHalfEven]
  split
  · exact hq
  · split
    · omega
    · split <;> omega

/-! ### The exponent of a ratio -/

theorem ratioExp_bounds (n d : Nat) (hn : n ≠ 0) (hd : d ≠ 0) :
    (2 : ℚ) ^ ratioExp n d ≤ (n : ℚ) / d ∧ (n : ℚ) / d < (2 : ℚ) ^ (ratioExp n d + 1) := by
  have hdq : (0 : ℚ) < d := by exact_mod_cast Nat.pos_of_ne_zero hd
  have n1 : (2 : ℚ) ^ Nat.log2 n ≤ n := by exact_mod_cast Nat.log2_self_le hn
  have n2 : (n : ℚ) < 2 ^ (Nat.log2 n + 1) := by exact_mod_cast Nat.lt_log2_self
  have d1 : (2 : ℚ) ^ Nat.log2 d ≤ d := by exact_mod_cast Nat.log2_self_le hd
  have d2 : (d : ℚ) < 2 ^ (Nat.log2 d + 1) := by exact_mod_cast Nat.lt_log2_self
  obtain ⟨a, ha⟩ : ∃ a, Nat.log2 n = a := ⟨_, rfl⟩
  obtain ⟨b, hb⟩ : ∃ b, Nat.log2 d = b := ⟨_, rfl⟩
  rw [ha] at n1 n2
  rw [hb] at d1 d2
  have pa : (0 : ℚ) < 2 ^ a := by positivity
  have pb : (0 : ℚ) < 2 ^ b := by positivity
  have z1 : (2 : ℚ) ^ ((a : ℤ) - b) = 2 ^ a / 2 ^ b := by
    rw [zpow_sub₀ (by norm_num)]; simp
  have z2 : (2 : ℚ) ^ ((a : ℤ) - b + 1) = 2 * (2 ^ a / 2 ^ b) := by
    rw [zpow_add₀ (by norm_num), z1]; simp; ring
  have z3 : (2 : ℚ) ^ ((a : ℤ) - b - 1) = 2 ^ a / 2 ^ b / 2 := by
    rw [zpow_sub₀ (by norm_num), z1]; simp
  rw [pow_succ] at n2 d2
  simp only [ratioExp, ha, hb]
  split
  · rename_i h
    have h' : (d : ℚ) * 2 ^ a ≤ n * 2 ^ b := by exact_mod_cast h
    rw [z1, z2]
    refine ⟨?_, ?_⟩
    · rw [div_le_div_iff₀ pb hdq]; linarith
    · rw [← mul_div_assoc, div_lt_div_iff₀ hdq pb]
      nlinarith [mul_le_mul_of_nonneg_left d1 pa.le, mul_lt_mul_of_pos_right n2 pb]
  · rename_i h
    have h' : (n : ℚ) * 2 ^ b < d * 2 ^ a := by exact_mod_cast Nat.lt_of_not_le h
    rw [z3, show (a : ℤ) - b - 1 + 1 = (a : ℤ) - b by ring, z1]
    refine ⟨?_, ?_⟩
    · rw [div_div, div_le_div_iff₀ (by positivity) hdq]
      nlinarith [mul_le_mul_of_nonneg_right n1 pb.le, mul_lt_mul_of_pos_left d2 pa]
    · rw [div_lt_div_iff₀ hdq pb]; linarith

/-! ### The value of a pattern without its sign -/

/-- The magnitude a pattern without sign bit stands for. -/
def magValue (m : Nat) : ℚ :=
  ((if m / 2 ^ 52 = 0 then m % 2 ^ 52 else 2 ^ 52 + m % 2 ^ 52 : ℕ) : ℚ) * 2 ^ ((max (m / 2 ^ 52) 1 : ℕ) - 1075 : ℤ)

theorem zpow_weight (w : ℕ) : (2 : ℚ) ^ w / 2 ^ 1075 = 2 ^ ((w : ℤ) - 1075) := by
  rw [zpow_sub₀ (by norm_num)]; norm_cast

theorem signed_toNat (neg : Bool) (m : Nat) (h : m < 2 ^ 63) :
    (signed neg m).toNat = (if neg then 2 ^ 63 else 0) + m := by
  rw [signed, BitVec.toNat_ofNat]
  apply Nat.mod_eq_of_lt
  cases neg <;> simp <;> omega

theorem f64Neg_signed (neg : Bool) (m : Nat) (h : m < 2 ^ 63) : f64Neg (signed neg m) = neg := by
  rw [f64Neg, BitVec.getLsbD, signed_toNat neg m h, Nat.testBit_eq_decide_div_mod_eq]
  cases neg
  · simp; omega
  · simp only [if_true, decide_eq_true_eq]; omega

theorem f64Exp_signed (neg : Bool) (m : Nat) (h : m < 2 ^ 63) : f64Exp (signed neg m) = m / 2 ^ 52 := by
  rw [f64Exp, signed_toNat neg m h]
  cases neg <;> simp <;> omega

theorem f64Frac_signed (neg : Bool) (m : Nat) (h : m < 2 ^ 63) : f64Frac (signed neg m) = m % 2 ^ 52 := by
  rw [f64Frac, signed_toNat neg m h]
  cases neg
  · simp
  · simp only [if_true]; omega

theorem f64Value_signed (neg : Bool) (m : Nat) (h : m < 2 ^ 63) :
    f64Value (signed neg m) = (if neg then -1 else 1) * magValue m := by
  rw [f64Value, f64Neg_signed neg m h, mul_div_assoc, zpow_weight]
  simp only [f64Mant, f64Weight, f64Exp_signed neg m h, f64Frac_signed neg m h, magValue]

/-- Every pattern is a sign and a magnitude. -/
theorem f64_eq_signed (x : F64) : x = signed (f64Neg x) (x.toNat % 2 ^ 63) := by
  apply BitVec.eq_of_toNat_eq
  rw [signed_toNat _ _ (Nat.mod_lt _ (by norm_num))]
  have hlt := x.isLt
  have hn : f64Neg x = decide (x.toNat / 2 ^ 63 % 2 = 1) := by
    rw [f64Neg, BitVec.getLsbD, Nat.testBit_eq_decide_div_mod_eq]
  rw [hn]
  by_cases h : x.toNat / 2 ^ 63 % 2 = 1
  · simp only [h, decide_true, if_true]; omega
  · simp only [h, decide_false, Bool.false_eq_true, if_false]; omega

theorem magValue_nonneg (m : Nat) : 0 ≤ magValue m := by unfold magValue; positivity

/-- A finite magnitude is a multiple of the unit `2 ^ (e - 52)`, or less than `2 ^ e`. -/
theorem magValue_multiple_or_less (m : Nat) (e : ℤ) (_ : -1022 ≤ e) :
    (∃ j : ℕ, magValue m = j * 2 ^ (e - 52)) ∨ magValue m < 2 ^ e := by
  obtain ⟨M, hM⟩ : ∃ M : ℕ, (if m / 2 ^ 52 = 0 then m % 2 ^ 52 else 2 ^ 52 + m % 2 ^ 52) = M := ⟨_, rfl⟩
  obtain ⟨E, hE⟩ : ∃ E : ℕ, max (m / 2 ^ 52) 1 = E := ⟨_, rfl⟩
  have hMlt : M < 2 ^ 53 := by rw [← hM]; split <;> omega
  have hE1 : 1 ≤ E := by omega
  have hv : magValue m = M * 2 ^ ((E : ℤ) - 1075) := by rw [magValue, hM, hE]
  rcases le_or_gt (e - 52) ((E : ℤ) - 1075) with h | h
  · left
    obtain ⟨k, hk⟩ := Int.eq_ofNat_of_zero_le (sub_nonneg.mpr h)
    refine ⟨M * 2 ^ k, ?_⟩
    have hsum : (E : ℤ) - 1075 = k + (e - 52) := by omega
    rw [hv, hsum, zpow_add₀ (by norm_num)]
    push_cast; rw [zpow_natCast]; ring
  · right
    have hMq : (M : ℚ) < 2 ^ (53 : ℤ) := by exact_mod_cast hMlt
    have hp : (0 : ℚ) < 2 ^ ((E : ℤ) - 1075) := by positivity
    calc magValue m = M * 2 ^ ((E : ℤ) - 1075) := hv
      _ < 2 ^ (53 : ℤ) * 2 ^ ((E : ℤ) - 1075) := mul_lt_mul_of_pos_right hMq hp
      _ = 2 ^ (53 + ((E : ℤ) - 1075)) := (zpow_add₀ (by norm_num) _ _).symm
      _ ≤ 2 ^ e := zpow_le_zpow_right₀ (by norm_num) (by omega)

/-- The pattern of `k` units, a carry going into the exponent field. -/
theorem magValue_units (e : ℤ) (k : ℕ) (he : -1022 ≤ e) (hk : k ≤ 2 ^ 53) (hk' : 2 ^ 52 ≤ k ∨ e = -1022) :
    magValue ((e + 1022).toNat * 2 ^ 52 + k) = k * 2 ^ (e - 52) := by
  obtain ⟨E, hE⟩ : ∃ E : ℕ, (e + 1022).toNat = E := ⟨_, rfl⟩
  have heE : e = E - 1022 := by omega
  rw [hE, heE]
  rcases Nat.lt_or_ge k (2 ^ 52) with h | h
  · have hE0 : E = 0 := by omega
    subst hE0
    have h1 : (0 * 2 ^ 52 + k) / 2 ^ 52 = 0 := by omega
    have h2 : (0 * 2 ^ 52 + k) % 2 ^ 52 = k := by omega
    simp only [magValue, h1, h2]
    norm_num
  · rcases Nat.lt_or_ge k (2 ^ 53) with h3 | h3
    · have h1 : (E * 2 ^ 52 + k) / 2 ^ 52 = E + 1 := by omega
      have h2 : (E * 2 ^ 52 + k) % 2 ^ 52 = k - 2 ^ 52 := by omega
      have h4 : 2 ^ 52 + (k - 2 ^ 52) = k := by omega
      have h5 : max (E + 1) 1 = E + 1 := by omega
      have hs : ((E + 1 : ℕ) : ℤ) - 1075 = (E : ℤ) - 1022 - 52 := by push_cast; ring
      rw [magValue, h1, h2, h5, if_neg (Nat.succ_ne_zero E), h4, hs]
    · have hk53 : k = 2 ^ 53 := by omega
      have hkq : (k : ℚ) = 9007199254740992 := by rw [hk53]; norm_num
      have h1 : (E * 2 ^ 52 + k) / 2 ^ 52 = E + 2 := by omega
      have h2 : (E * 2 ^ 52 + k) % 2 ^ 52 = 0 := by omega
      have h5 : max (E + 2) 1 = E + 2 := by omega
      have hs : ((E + 2 : ℕ) : ℤ) - 1075 = ((E : ℤ) - 1022 - 52) + 1 := by push_cast; ring
      rw [magValue, h1, h2, h5, if_neg (Nat.succ_ne_zero (E + 1)), hs, zpow_add₀ (by norm_num), hkq]
      generalize (2 : ℚ) ^ ((E : ℤ) - 1022 - 52) = u
      norm_num; ring

/-! ### `roundRatio` -/

/-- Everything `roundRatio` does with a ratio whose exponent `e` is that of a normal number: the pattern is finite
and normal, and it is the nearest multiple `k` of the unit, ties to even. -/
theorem roundRatio_normal (n d : Nat) (hn : n ≠ 0) (hd : d ≠ 0) (e : ℤ) (he : e = ratioExp n d)
    (hlo : -1022 ≤ e) (hhi : e ≤ 1022) :
    ∃ k : ℕ, 2 ^ 52 ≤ k ∧ k ≤ 2 ^ 53 ∧ roundRatio n d = (e + 1022).toNat * 2 ^ 52 + k ∧
      ∀ j : ℤ, |(k : ℚ) - n / d / 2 ^ (e - 52)| ≤ |(j : ℚ) - n / d / 2 ^ (e - 52)| ∧
        (|(j : ℚ) - n / d / 2 ^ (e - 52)| = |(k : ℚ) - n / d / 2 ^ (e - 52)| → j ≠ k → k % 2 = 0) := by
  have hb := ratioExp_bounds n d hn hd
  rw [← he] at hb
  have hdq : (0 : ℚ) < d := by exact_mod_cast Nat.pos_of_ne_zero hd
  obtain ⟨N, hN⟩ : ∃ N : ℕ, n * 2 ^ (52 - e).toNat = N := ⟨_, rfl⟩
  obtain ⟨D, hD⟩ : ∃ D : ℕ, d * 2 ^ (-(52 - e)).toNat = D := ⟨_, rfl⟩
  have hD0 : 0 < D := by rw [← hD]; positivity
  have hDq : (0 : ℚ) < D := by exact_mod_cast hD0
  have hu : (0 : ℚ) < 2 ^ (e - 52) := by positivity
  have hND : (N : ℚ) / D = n / d / 2 ^ (e - 52) := by
    rw [← hN, ← hD]
    push_cast
    rcases le_or_gt 0 (52 - e) with h | h
    · have h1 : (-(52 - e)).toNat = 0 := by omega
      have h2 : ((2 : ℚ) ^ (52 - e).toNat) = (2 ^ (e - 52))⁻¹ := by
        rw [← zpow_natCast, ← zpow_neg]; congr 1; omega
      rw [h1, h2]; field_simp
    · have h1 : (52 - e).toNat = 0 := by omega
      have h2 : ((2 : ℚ) ^ (-(52 - e)).toNat) = 2 ^ (e - 52) := by
        rw [← zpow_natCast]; congr 1; omega
      rw [h1, h2]; field_simp
  have hlow : (2 : ℚ) ^ 52 ≤ N / D := by
    rw [hND, le_div_iff₀ hu, ← zpow_natCast, ← zpow_add₀ (by norm_num)]
    simpa using hb.1
  have hupp : (N : ℚ) / D < 2 ^ 53 := by
    rw [hND, div_lt_iff₀ hu, ← zpow_natCast, ← zpow_add₀ (by norm_num)]
    have h : ((53 : ℕ) : ℤ) + (e - 52) = e + 1 := by push_cast; ring
    rw [h]; exact hb.2
  refine ⟨roundHalfEven N D, ?_, ?_, ?_, ?_⟩
  · apply le_roundHalfEven _ _ _ hD0
    rw [le_div_iff₀ hDq] at hlow
    exact_mod_cast hlow
  · apply roundHalfEven_le _ _ _ hD0
    rw [div_lt_iff₀ hDq] at hupp
    exact_mod_cast hupp.le
  · have hk : roundHalfEven N D ≤ 2 ^ 53 := by
      apply roundHalfEven_le _ _ _ hD0
      rw [div_lt_iff₀ hDq] at hupp
      exact_mod_cast hupp.le
    have hmax : max (ratioExp n d) (-1022) = e := by omega
    simp only [roundRatio, if_neg hn, hmax, hN, hD]
    omega
  · intro j
    rw [← hND]
    exact roundHalfEven_nearest N D hD0 j

/-- The magnitude of a normal ratio is finite, normal, nearest among all finite magnitudes, and even at a tie. -/
theorem roundRatio_nearest (n d : Nat) (hn : n ≠ 0) (hd : d ≠ 0)
    (hlo : -1022 ≤ ratioExp n d) (hhi : ratioExp n d ≤ 1022) :
    2 ^ 52 ≤ roundRatio n d ∧ roundRatio n d < 2047 * 2 ^ 52 ∧
      ∀ m : ℕ, |magValue (roundRatio n d) - n / d| ≤ |magValue m - n / d| ∧
        (|magValue m - n / d| = |magValue (roundRatio n d) - n / d| → magValue m ≠ magValue (roundRatio n d) →
          roundRatio n d % 2 = 0) := by
  obtain ⟨e, he⟩ : ∃ e, e = ratioExp n d := ⟨_, rfl⟩
  rw [← he] at hlo hhi
  have hb := ratioExp_bounds n d hn hd
  rw [← he] at hb
  obtain ⟨k, hk52, hk53, hmag, hnear⟩ := roundRatio_normal n d hn hd e he hlo hhi
  have hu : (0 : ℚ) < 2 ^ (e - 52) := by positivity
  have hval : magValue (roundRatio n d) = k * 2 ^ (e - 52) := by
    rw [hmag]; exact magValue_units e k hlo hk53 (.inl hk52)
  have scale : ∀ x : ℚ, |x * 2 ^ (e - 52) - n / d| = |x - n / d / 2 ^ (e - 52)| * 2 ^ (e - 52) := by
    intro x
    rw [← abs_of_pos hu, ← abs_mul, abs_of_pos hu, sub_mul, div_mul_cancel₀ _ hu.ne']
  refine ⟨by rw [hmag]; omega, by rw [hmag]; omega, fun m => ?_⟩
  rw [hval, scale]
  rcases magValue_multiple_or_less m e hlo with ⟨j, hj⟩ | hless
  · rw [hj, scale]
    obtain ⟨h1, h2⟩ := hnear j
    refine ⟨mul_le_mul_of_nonneg_right (by exact_mod_cast h1) hu.le, fun htie hne => ?_⟩
    have hjk : (j : ℤ) ≠ k := by
      rintro h
      have : j = k := by exact_mod_cast h
      exact hne (by rw [this])
    have := h2 (by exact_mod_cast mul_right_cancel₀ hu.ne' htie) hjk
    rw [hmag]; omega
  · have hpow : (2 : ℚ) ^ e = ((2 ^ 52 : ℕ) : ℤ) * 2 ^ (e - 52) := by
      have h52 : (((2 ^ 52 : ℕ) : ℤ) : ℚ) = 2 ^ (52 : ℤ) := by norm_num
      rw [h52, ← zpow_add₀ (by norm_num)]; congr 1; ring
    have h1 := (hnear ((2 ^ 52 : ℕ) : ℤ)).1
    have h2 : |(k : ℚ) - n / d / 2 ^ (e - 52)| * 2 ^ (e - 52) ≤ n / d - 2 ^ e := by
      calc _ ≤ |(((2 ^ 52 : ℕ) : ℤ) : ℚ) - n / d / 2 ^ (e - 52)| * 2 ^ (e - 52) :=
            mul_le_mul_of_nonneg_right h1 hu.le
        _ = |(2 : ℚ) ^ e - n / d| := by rw [← scale, ← hpow]
        _ = n / d - 2 ^ e := by rw [abs_sub_comm, abs_of_nonneg (by linarith [hb.1])]
    have h3 : |magValue m - n / d| = n / d - magValue m := by
      rw [abs_sub_comm, abs_of_nonneg (by linarith [hb.1])]
    rw [h3]
    exact ⟨by linarith, fun htie _ => by linarith⟩

end Sys2Proof.Machine
end

