-- ==== Sys2Proof/Laws/Division.lean ====
section
/-! SUPPORT. What `i2f` and `fdiv` give: an exact integer (R204), and the quotient rounded once (R205), never a NaN,
an infinity, -0.0 or a subnormal number in the range of the engine (R206). Later proofs cite these and do not unfold
the arithmetic. -/

namespace Sys2Proof.Machine

/-! ### Fields of a signed pattern -/

theorem ratioExp_range (n d : Nat) (hn : n ≠ 0) (hd : d ≠ 0)
    (hlo : (2 : ℚ) ^ (-1022 : ℤ) ≤ (n : ℚ) / d) (hhi : (n : ℚ) / d < 2 ^ (1023 : ℤ)) :
    -1022 ≤ ratioExp n d ∧ ratioExp n d ≤ 1022 := by
  obtain ⟨h1, h2⟩ := ratioExp_bounds n d hn hd
  have h3 : (-1022 : ℤ) < ratioExp n d + 1 := (zpow_lt_zpow_iff_right₀ (by norm_num)).mp (hlo.trans_lt h2)
  have h4 : ratioExp n d < 1023 := (zpow_lt_zpow_iff_right₀ (by norm_num)).mp (h1.trans_lt hhi)
  omega

theorem roundRatio_lt (n d : Nat) : roundRatio n d < 2 ^ 63 := by
  unfold roundRatio
  split
  · norm_num
  · exact lt_of_le_of_lt (min_le_right _ _) (by norm_num)

theorem magValue_zero : magValue 0 = 0 := by simp [magValue]

theorem f64Value_eq_magValue (x : F64) :
    f64Value x = (if f64Neg x then -1 else 1) * magValue (x.toNat % 2 ^ 63) := by
  conv_lhs => rw [f64_eq_signed x]
  exact f64Value_signed _ _ (Nat.mod_lt _ (by norm_num))

/-- A ratio in the normal range, with a sign: finite, clean, and rounded to nearest, ties to even. -/
theorem rounded_signed (neg : Bool) (n d : Nat) (hn : n ≠ 0) (hd : d ≠ 0)
    (hlo : (2 : ℚ) ^ (-1022 : ℤ) ≤ (n : ℚ) / d) (hhi : (n : ℚ) / d < 2 ^ (1023 : ℤ)) :
    RoundedNearestEven (signed neg (roundRatio n d)) ((if neg then -1 else 1) * ((n : ℚ) / d)) ∧
      CleanF64 (signed neg (roundRatio n d)) := by
  obtain ⟨r1, r2⟩ := ratioExp_range n d hn hd hlo hhi
  obtain ⟨hnorm, hfin, hnear⟩ := roundRatio_nearest n d hn hd r1 r2
  obtain ⟨g, hg⟩ : ∃ g, roundRatio n d = g := ⟨_, rfl⟩
  rw [hg] at hnorm hfin hnear ⊢
  have hg63 : g < 2 ^ 63 := by omega
  have hq : (0 : ℚ) < n / d := by
    have h1 : (0 : ℚ) < n := by exact_mod_cast Nat.pos_of_ne_zero hn
    have h2 : (0 : ℚ) < d := by exact_mod_cast Nat.pos_of_ne_zero hd
    positivity
  obtain ⟨q, hqd⟩ : ∃ q : ℚ, (n : ℚ) / d = q := ⟨_, rfl⟩
  rw [hqd] at hq hnear ⊢
  have hexp : f64Exp (signed neg g) = g / 2 ^ 52 := f64Exp_signed neg g hg63
  have hexp0 : f64Exp (signed neg g) ≠ 0 := by rw [hexp]; omega
  have hfinite : f64Finite (signed neg g) = true := by
    simp only [f64Finite, hexp, bne_iff_ne]; omega
  have hval : f64Value (signed neg g) = (if neg then -1 else 1) * magValue g := f64Value_signed neg g hg63
  have hdist : |f64Value (signed neg g) - (if neg then -1 else 1) * q| = |magValue g - q| := by
    rw [hval]
    cases neg
    · simp
    · simp only [if_true]; rw [← abs_neg]; congr 1; ring
  have hpar : f64Mant (signed neg g) % 2 = g % 2 := by
    rw [f64Mant, if_neg hexp0, f64Frac_signed neg g hg63]; omega
  have h0 := hnear 0
  rw [magValue_zero] at h0
  have habs0 : |(0 : ℚ) - q| = q := by rw [zero_sub, abs_neg, abs_of_pos hq]
  rw [habs0] at h0
  have other : ∀ y : F64, f64Neg y ≠ neg →
      |f64Value y - (if neg then -1 else 1) * q| = magValue (y.toNat % 2 ^ 63) + q := by
    intro y hy
    have hm := magValue_nonneg (y.toNat % 2 ^ 63)
    rw [f64Value_eq_magValue]
    generalize magValue (y.toNat % 2 ^ 63) = v at hm
    cases neg <;> cases hyn : f64Neg y
    · exact absurd hyn hy
    · simp only [if_true, Bool.false_eq_true, if_false]
      rw [abs_of_nonpos (by linarith)]; ring
    · simp only [if_true, Bool.false_eq_true, if_false]
      rw [abs_of_nonneg (by linarith)]; ring
    · exact absurd hyn hy
  have same : ∀ y : F64, f64Neg y = neg →
      |f64Value y - (if neg then -1 else 1) * q| = |magValue (y.toNat % 2 ^ 63) - q| := by
    intro y hy
    rw [f64Value_eq_magValue, hy]
    cases neg
    · simp
    · simp only [if_true]; rw [← abs_neg]; congr 1; ring
  refine ⟨⟨hfinite, fun y _ => ?_, fun y _ htie hne => ?_, fun hz => ?_⟩, hfinite, .inr hexp0⟩
  · rw [hdist]
    by_cases hy : f64Neg y = neg
    · rw [same y hy]; exact (hnear _).1
    · rw [other y hy]
      have := magValue_nonneg (y.toNat % 2 ^ 63)
      linarith [h0.1]
  · rw [hpar]
    rw [hdist] at htie
    by_cases hy : f64Neg y = neg
    · rw [same y hy] at htie
      refine (hnear _).2 htie fun heq => hne ?_
      rw [hval, f64Value_eq_magValue y, hy, heq]
    · rw [other y hy] at htie
      have hm := magValue_nonneg (y.toNat % 2 ^ 63)
      have hm0 : magValue (y.toNat % 2 ^ 63) = 0 := by linarith [h0.1]
      refine h0.2 (by linarith) fun heq => hne ?_
      rw [hval, f64Value_eq_magValue y, hm0, ← heq]; simp
  · exfalso
    cases neg <;> simp at hz <;> linarith

/-! ### Integers -/

/-- A ratio that is `j` units of some power of two, with `j` of at most 53 bits, is not rounded at all. -/
theorem roundRatio_exact (n d : Nat) (hn : n ≠ 0) (hd : d ≠ 0)
    (hlo : (2 : ℚ) ^ (-1022 : ℤ) ≤ (n : ℚ) / d) (hhi : (n : ℚ) / d < 2 ^ (1023 : ℤ))
    (j : ℕ) (s : ℤ) (hj : j < 2 ^ 53) (hq : (n : ℚ) / d = j * 2 ^ s) :
    magValue (roundRatio n d) = (n : ℚ) / d := by
  obtain ⟨r1, r2⟩ := ratioExp_range n d hn hd hlo hhi
  obtain ⟨e, he⟩ : ∃ e, e = ratioExp n d := ⟨_, rfl⟩
  rw [← he] at r1 r2
  have hb := (ratioExp_bounds n d hn hd).1
  rw [← he] at hb
  have hjq : (j : ℚ) < 2 ^ (53 : ℤ) := by exact_mod_cast hj
  have hlt : (2 : ℚ) ^ e < 2 ^ (53 + s) := by
    rw [zpow_add₀ (by norm_num)]
    exact hb.trans_lt (hq ▸ mul_lt_mul_of_pos_right hjq (by positivity))
  have hes : e < 53 + s := (zpow_lt_zpow_iff_right₀ (by norm_num)).mp hlt
  obtain ⟨k, hk1, hk2, hmag, hnear⟩ := roundRatio_normal n d hn hd e he r1 r2
  have hu : (0 : ℚ) < 2 ^ (e - 52) := by positivity
  have ht : (n : ℚ) / d / 2 ^ (e - 52) = ((j * 2 ^ (s - (e - 52)).toNat : ℕ) : ℤ) := by
    push_cast
    rw [hq, ← zpow_natCast, mul_div_assoc, ← zpow_sub₀ (by norm_num)]
    congr 2; omega
  have hk := (hnear ((j * 2 ^ (s - (e - 52)).toNat : ℕ) : ℤ)).1
  rw [ht, sub_self, abs_zero] at hk
  have hkt : (k : ℚ) = n / d / 2 ^ (e - 52) := by
    rw [ht]; exact sub_eq_zero.mp (abs_eq_zero.mp (le_antisymm hk (abs_nonneg _)))
  rw [hmag, magValue_units e k r1 hk2 (.inl hk1), hkt, div_mul_cancel₀ _ hu.ne']

/-- R204: a positive integer below `2 ^ 53` is a normal pattern of exactly that value. -/
theorem roundRatio_int (n : Nat) (hn : n ≠ 0) (h : n < 2 ^ 53) :
    magValue (roundRatio n 1) = n ∧ 2 ^ 52 ≤ roundRatio n 1 ∧ roundRatio n 1 < 2047 * 2 ^ 52 := by
  have hn1 : (1 : ℚ) ≤ n := by exact_mod_cast Nat.pos_of_ne_zero hn
  have hnq : (n : ℚ) < 2 ^ (53 : ℤ) := by exact_mod_cast h
  have hlo : (2 : ℚ) ^ (-1022 : ℤ) ≤ (n : ℚ) / (1 : ℕ) := by
    rw [Nat.cast_one, div_one]
    calc (2 : ℚ) ^ (-1022 : ℤ) ≤ 2 ^ (0 : ℤ) := zpow_le_zpow_right₀ (by norm_num) (by norm_num)
      _ = 1 := zpow_zero _
      _ ≤ n := hn1
  have hhi : (n : ℚ) / (1 : ℕ) < 2 ^ (1023 : ℤ) := by
    rw [Nat.cast_one, div_one]
    exact hnq.trans (zpow_lt_zpow_right₀ (by norm_num) (by norm_num))
  obtain ⟨r1, r2⟩ := ratioExp_range n 1 hn one_ne_zero hlo hhi
  obtain ⟨b1, b2, -⟩ := roundRatio_nearest n 1 hn one_ne_zero r1 r2
  refine ⟨?_, b1, b2⟩
  rw [roundRatio_exact n 1 hn one_ne_zero hlo hhi n 0 h (by simp)]
  simp

theorem i2f_zero : i2f 0 = 0 := by decide

theorem f64Neg_i2f (n : ℤ) : f64Neg (i2f n) = decide (n < 0) := f64Neg_signed _ _ (roundRatio_lt _ _)

/-- R204: `i2f(n)` is exactly `n`, and clean. -/
theorem i2f_exact (n : ℤ) (h : n.natAbs < 2 ^ 53) : f64Value (i2f n) = n ∧ CleanF64 (i2f n) := by
  by_cases hn : n = 0
  · subst hn
    rw [i2f_zero]
    exact ⟨by simp [f64Value, f64Mant, f64Exp, f64Frac], by decide, .inl rfl⟩
  · have hn' : n.natAbs ≠ 0 := Int.natAbs_ne_zero.mpr hn
    obtain ⟨h1, h2, h3⟩ := roundRatio_int n.natAbs hn' h
    have hlt := roundRatio_lt n.natAbs 1
    refine ⟨?_, ?_, .inr ?_⟩
    · rw [i2f, f64Value_signed _ _ hlt, h1]
      rcases lt_or_gt_of_ne hn with hneg | hpos
      · have : ((n.natAbs : ℕ) : ℤ) = -n := by omega
        have hq : ((n.natAbs : ℕ) : ℚ) = -n := by rw [← Int.cast_natCast, this, Int.cast_neg]
        rw [hq]; simp [hneg]
      · have : ((n.natAbs : ℕ) : ℤ) = n := by omega
        have hq : ((n.natAbs : ℕ) : ℚ) = n := by rw [← Int.cast_natCast, this]
        rw [hq]; simp [not_lt.mpr hpos.le]
    · simp only [f64Finite, i2f, f64Exp_signed _ _ hlt, bne_iff_ne]; omega
    · rw [i2f, f64Exp_signed _ _ hlt]; omega

/-! ### Division -/

theorem f64Mant_eq_zero_iff (x : F64) : f64Mant x = 0 ↔ f64Value x = 0 := by
  rw [f64Value]
  constructor
  · intro h; simp [h]
  · intro h
    have hp : (2 : ℚ) ^ f64Weight x / 2 ^ 1075 ≠ 0 := by positivity
    have hs : ((if f64Neg x then -1 else 1 : ℚ)) ≠ 0 := by split <;> norm_num
    rw [mul_div_assoc] at h
    rcases mul_eq_zero.mp h with h | h
    · exact absurd h hs
    · rcases mul_eq_zero.mp h with h | h
      · exact_mod_cast h
      · exact absurd h hp

theorem abs_f64Value (x : F64) : |f64Value x| = f64Mant x * 2 ^ f64Weight x / 2 ^ 1075 := by
  rw [f64Value, abs_mul, abs_of_nonneg (a := _ / _) (by positivity)]
  split <;> simp

theorem fdiv_eq (x y : F64) (hx : f64Finite x = true) (hy : f64Finite y = true) (hy0 : f64Value y ≠ 0) :
    ∃ n d : ℕ, d ≠ 0 ∧ (n : ℚ) / d = |f64Value x| / |f64Value y| ∧
      fdiv x y = signed (f64Neg x != f64Neg y) (roundRatio n d) := by
  have hm : f64Mant y ≠ 0 := fun h => hy0 ((f64Mant_eq_zero_iff y).mp h)
  refine ⟨f64Mant x * 2 ^ (f64Weight x - min (f64Weight x) (f64Weight y)),
    f64Mant y * 2 ^ (f64Weight y - min (f64Weight x) (f64Weight y)), by positivity, ?_, ?_⟩
  · rw [abs_f64Value, abs_f64Value]
    have hmq : (f64Mant y : ℚ) ≠ 0 := by exact_mod_cast hm
    obtain ⟨l, hl⟩ : ∃ l, min (f64Weight x) (f64Weight y) = l := ⟨_, rfl⟩
    obtain ⟨i, hi⟩ : ∃ i, f64Weight x = i + l := ⟨f64Weight x - l, by omega⟩
    obtain ⟨j, hj⟩ : ∃ j, f64Weight y = j + l := ⟨f64Weight y - l, by omega⟩
    rw [hl, hi, hj, Nat.add_sub_cancel, Nat.add_sub_cancel]
    push_cast
    rw [pow_add, pow_add]
    field_simp
  · have hmb : (f64Mant y != 0) = true := by simpa using hm
    simp only [fdiv, hx, hy, hmb, Bool.and_self, if_true]

/-- A zero dividend without a sign, over a divisor without a sign, gives +0.0. -/
theorem fdiv_zero (y : F64) (hy : f64Finite y = true) (hy0 : f64Value y ≠ 0) (hpos : f64Neg y = false) :
    fdiv 0 y = 0 := by
  obtain ⟨n, d, hd, hnd, heq⟩ := fdiv_eq 0 y (by decide) hy hy0
  have hz : f64Value 0 = 0 := (f64Mant_eq_zero_iff 0).mp (by decide)
  rw [hz, abs_zero, zero_div] at hnd
  have hn : n = 0 := by
    rcases div_eq_zero_iff.mp hnd with h | h
    · exact_mod_cast h
    · exact absurd (by exact_mod_cast h) hd
  have hneg : f64Neg 0 = false := by decide
  rw [heq, hn, hpos, hneg]
  rfl

theorem f64Value_sign (z : F64) : f64Value z = (if f64Neg z then -1 else 1) * |f64Value z| := by
  rw [abs_f64Value, f64Value]

/-- A quotient of at most 53 bits is exact. -/
theorem fdiv_exact (x y : F64) (hx : f64Finite x = true) (hy : f64Finite y = true) (hx0 : f64Value x ≠ 0)
    (hy0 : f64Value y ≠ 0) (hlo : (2 : ℚ) ^ (-1022 : ℤ) ≤ |f64Value x| / |f64Value y|)
    (hhi : |f64Value x| / |f64Value y| < 2 ^ (1023 : ℤ)) (j : ℕ) (s : ℤ) (hj : j < 2 ^ 53)
    (hq : |f64Value x| / |f64Value y| = j * 2 ^ s) :
    f64Value (fdiv x y) = f64Value x / f64Value y ∧ f64Neg (fdiv x y) = (f64Neg x != f64Neg y) := by
  obtain ⟨n, d, hd, hnd, heq⟩ := fdiv_eq x y hx hy hy0
  have hn : n ≠ 0 := by
    rintro rfl
    rw [Nat.cast_zero, zero_div] at hnd
    rcases div_eq_zero_iff.mp hnd.symm with h | h
    · exact hx0 (abs_eq_zero.mp h)
    · exact hy0 (abs_eq_zero.mp h)
  have hv := roundRatio_exact n d hn hd (hnd ▸ hlo) (hnd ▸ hhi) j s hj (hnd ▸ hq)
  refine ⟨?_, by rw [heq]; exact f64Neg_signed _ _ (roundRatio_lt _ _)⟩
  rw [heq, f64Value_signed _ _ (roundRatio_lt _ _), hv, hnd, f64Value_sign x, f64Value_sign y, abs_mul, abs_mul,
    abs_abs, abs_abs]
  cases f64Neg x <;> cases f64Neg y <;> simp [neg_div, div_neg]

/-- R205, R206: a quotient in the normal range is the exact quotient rounded once, and clean. -/
theorem fdiv_rounded (x y : F64) (hx : f64Finite x = true) (hy : f64Finite y = true) (hx0 : f64Value x ≠ 0)
    (hy0 : f64Value y ≠ 0) (hlo : (2 : ℚ) ^ (-1022 : ℤ) ≤ |f64Value x| / |f64Value y|)
    (hhi : |f64Value x| / |f64Value y| < 2 ^ (1023 : ℤ)) :
    RoundedNearestEven (fdiv x y) (f64Value x / f64Value y) ∧ CleanF64 (fdiv x y) := by
  obtain ⟨n, d, hd, hnd, heq⟩ := fdiv_eq x y hx hy hy0
  have hn : n ≠ 0 := by
    rintro rfl
    rw [Nat.cast_zero, zero_div] at hnd
    rcases div_eq_zero_iff.mp hnd.symm with h | h
    · exact hx0 (abs_eq_zero.mp h)
    · exact hy0 (abs_eq_zero.mp h)
  have hquot : f64Value x / f64Value y = (if f64Neg x != f64Neg y then -1 else 1) * ((n : ℚ) / d) := by
    rw [hnd, f64Value_sign x, f64Value_sign y, abs_mul, abs_mul, abs_abs, abs_abs]
    cases f64Neg x <;> cases f64Neg y <;> simp [neg_div, div_neg]
  rw [heq, hquot]
  exact rounded_signed _ n d hn hd (hnd ▸ hlo) (hnd ▸ hhi)

end Sys2Proof.Machine
end

