-- ==== Sys2Proof/Laws/Engine.lean ====
section
/-! SUPPORT. What each conversion of the calibration engine gives, axis by axis: the exact quotient of its rule
rounded once (R193, R194, R196, R205), and a clean pattern on every operand (R206). -/

namespace Sys2Proof.Machine

/-! ### Ranges of the integer stage (R201) -/

theorem half_toInt_range (r : Half) : -32768 ≤ r.toInt ∧ r.toInt ≤ 32767 := by
  have h1 := BitVec.le_toInt r
  have h2 := BitVec.toInt_lt (x := r)
  omega

theorem pairRange_le (p m : Half) : pairRange p m ≤ 65535 := by
  have h1 := half_toInt_range p
  have h2 := half_toInt_range m
  unfold pairRange pairDiff
  omega

theorem pairRange_comm (p m : Half) : pairRange p m = pairRange m p := by
  unfold pairRange pairDiff; omega

theorem accelCenter_range (p m : Half) : -32768 ≤ accelCenter p m ∧ accelCenter p m ≤ 32767 := by
  have h1 := half_toInt_range p
  have h2 := half_toInt_range m
  unfold accelCenter
  rw [Int.tdiv_eq_ediv, show Int.sign 2 = 1 from rfl]
  omega

theorem accelCenter_comm (p m : Half) : accelCenter p m = accelCenter m p := by
  unfold accelCenter; rw [add_comm]

/-- The gyro product needs 33 signed bits (R201). -/
theorem gyroProduct_range (r bias sp sm : Half) :
    ((r.toInt - bias.toInt) * (sp.toInt + sm.toInt)).natAbs ≤ 4294901760 := by
  have h1 := half_toInt_range r
  have h2 := half_toInt_range bias
  have h3 := half_toInt_range sp
  have h4 := half_toInt_range sm
  rw [Int.natAbs_mul]
  calc (r.toInt - bias.toInt).natAbs * (sp.toInt + sm.toInt).natAbs ≤ 65535 * 65536 :=
        Nat.mul_le_mul (by omega) (by omega)
    _ = 4294901760 := by norm_num

/-! ### One division -/

theorem rounded_zero : RoundedNearestEven 0 0 where
  finite := by decide
  nearest y _ := by
    have hz : f64Value 0 = 0 := (f64Mant_eq_zero_iff 0).mp (by decide)
    rw [hz, sub_self, abs_zero]; exact abs_nonneg _
  tiesEven y _ htie hne := by
    have hz : f64Value 0 = 0 := (f64Mant_eq_zero_iff 0).mp (by decide)
    rw [hz, sub_zero, sub_zero, abs_zero] at htie
    exact absurd ((abs_eq_zero.mp htie).trans hz.symm) hne
  plusZero _ := rfl

theorem clean_zero : CleanF64 0 := ⟨by decide, .inl rfl⟩

theorem one_le_abs_cast {a : ℤ} (ha : a ≠ 0) : (1 : ℚ) ≤ |(a : ℚ)| := by
  have : (1 : ℤ) ≤ |a| := Int.one_le_abs ha
  exact_mod_cast this

theorem abs_cast_lt {a : ℤ} (ha : a.natAbs < 2 ^ 53) : |(a : ℚ)| < 2 ^ (53 : ℤ) := by
  have h : |(a : ℚ)| = (a.natAbs : ℕ) := by
    rw [← Int.cast_abs, Int.abs_eq_natAbs, Int.cast_natCast]
  rw [h]; exact_mod_cast ha

theorem quotient_range {a v : ℚ} (ha1 : 1 ≤ a) (ha2 : a < 2 ^ (53 : ℤ)) (h1 : 1 / 2 ≤ v) (h2 : v ≤ 2 ^ 17) :
    (2 : ℚ) ^ (-1022 : ℤ) ≤ a / v ∧ a / v < 2 ^ (1023 : ℤ) := by
  have hv : (0 : ℚ) < v := by linarith
  constructor
  · calc (2 : ℚ) ^ (-1022 : ℤ) ≤ 2 ^ (-17 : ℤ) := zpow_le_zpow_right₀ (by norm_num) (by norm_num)
      _ = 1 / 2 ^ 17 := by norm_num
      _ ≤ 1 / v := one_div_le_one_div_of_le hv h2
      _ ≤ a / v := by gcongr
  · calc a / v ≤ a / (1 / 2) := by gcongr
      _ = 2 * a := by ring
      _ < 2 * 2 ^ (53 : ℤ) := by linarith
      _ = 2 ^ (54 : ℤ) := by norm_num
      _ ≤ 2 ^ (1023 : ℤ) := zpow_le_zpow_right₀ (by norm_num) (by norm_num)

/-- An integer of the engine over a positive finite divisor of its range: the quotient rounded once, and clean. -/
theorem fdiv_i2f (a : ℤ) (y : F64) (ha : a.natAbs < 2 ^ 53) (hy : f64Finite y = true) (hpos : f64Neg y = false)
    (h1 : 1 / 2 ≤ f64Value y) (h2 : f64Value y ≤ 2 ^ 17) :
    RoundedNearestEven (fdiv (i2f a) y) (a / f64Value y) ∧ CleanF64 (fdiv (i2f a) y) := by
  have hy0 : f64Value y ≠ 0 := by linarith
  by_cases ha0 : a = 0
  · subst ha0
    rw [i2f_zero, fdiv_zero y hy hy0 hpos, Int.cast_zero, zero_div]
    exact ⟨rounded_zero, clean_zero⟩
  · obtain ⟨hv, hc⟩ := i2f_exact a ha
    have haq : (a : ℚ) ≠ 0 := by exact_mod_cast ha0
    have hr := quotient_range (one_le_abs_cast ha0) (abs_cast_lt ha) h1 h2
    have habs : |f64Value y| = f64Value y := abs_of_nonneg (by linarith)
    have := fdiv_rounded (i2f a) y hc.1 hy (by rw [hv]; exact haq) hy0
      (by rw [hv, habs]; exact hr.1) (by rw [hv, habs]; exact hr.2)
    rwa [hv] at this

/-- The denominator of an axis as a binary64 number (R194). -/
theorem i2f_den (den : ℕ) (h0 : den ≠ 0) (h : den ≤ 65535) :
    f64Value (i2f den) = den ∧ f64Finite (i2f den) = true ∧ f64Neg (i2f den) = false ∧
      (1 : ℚ) ≤ den ∧ (den : ℚ) ≤ 65535 := by
  obtain ⟨hv, hc⟩ := i2f_exact (den : ℤ) (by rw [Int.natAbs_natCast]; omega)
  refine ⟨by rw [hv]; simp, hc.1, by rw [f64Neg_i2f]; simp, ?_, by exact_mod_cast h⟩
  exact_mod_cast Nat.pos_of_ne_zero h0

theorem two_value : f64Value Config.TWO = 2 := by
  have hm : f64Mant Config.TWO = 2 ^ 52 := by decide
  have hw : f64Weight Config.TWO = 1024 := by decide
  have hn : f64Neg Config.TWO = false := by decide
  rw [f64Value, hm, hw, hn, mul_div_assoc, zpow_weight]
  norm_num

theorem accelDiv_value : f64Value Config.ACCEL_NOMINAL_DIV = 8192 := by
  have hm : f64Mant Config.ACCEL_NOMINAL_DIV = 2 ^ 52 := by decide
  have hw : f64Weight Config.ACCEL_NOMINAL_DIV = 1036 := by decide
  have hn : f64Neg Config.ACCEL_NOMINAL_DIV = false := by decide
  rw [f64Value, hm, hw, hn, mul_div_assoc, zpow_weight]
  norm_num

theorem gyroDiv_value : f64Value Config.GYRO_NOMINAL_DIV = 4616189618054758 / 2 ^ 48 := by
  have hm : f64Mant Config.GYRO_NOMINAL_DIV = 4616189618054758 := by decide
  have hw : f64Weight Config.GYRO_NOMINAL_DIV = 1027 := by decide
  have hn : f64Neg Config.GYRO_NOMINAL_DIV = false := by decide
  rw [f64Value, hm, hw, hn, mul_div_assoc, zpow_weight]
  norm_num

/-- R198: the half range is exact. -/
theorem halfRange_exact (den : ℕ) (h0 : den ≠ 0) (h : den ≤ 65535) :
    f64Value (fdiv (i2f den) Config.TWO) = den / 2 ∧ f64Finite (fdiv (i2f den) Config.TWO) = true ∧
      f64Neg (fdiv (i2f den) Config.TWO) = false := by
  obtain ⟨hv, hf, hn, h1, h2⟩ := i2f_den den h0 h
  have hf2 : f64Finite Config.TWO = true := by decide
  have hn2 : f64Neg Config.TWO = false := by decide
  have hr := quotient_range (a := (den : ℚ)) (v := 2) h1 (lt_of_le_of_lt h2 (by norm_num)) (by norm_num) (by norm_num)
  have hd1 : |f64Value (i2f den)| = den := by rw [hv, abs_of_nonneg (by linarith)]
  have hd2 : |f64Value Config.TWO| = 2 := by rw [two_value]; norm_num
  have hx0 : f64Value (i2f den) ≠ 0 := by rw [hv]; linarith
  have hy0 : f64Value Config.TWO ≠ 0 := by rw [two_value]; norm_num
  have hlo : (2 : ℚ) ^ (-1022 : ℤ) ≤ |f64Value (i2f den)| / |f64Value Config.TWO| := by rw [hd1, hd2]; exact hr.1
  have hhi : |f64Value (i2f den)| / |f64Value Config.TWO| < 2 ^ (1023 : ℤ) := by rw [hd1, hd2]; exact hr.2
  obtain ⟨e1, e2⟩ := fdiv_exact (i2f den) Config.TWO hf hf2 hx0 hy0 hlo hhi den (-1) (by omega)
    (by rw [hd1, hd2]; norm_num; ring)
  refine ⟨by rw [e1, hv, two_value], ?_, by rw [e2, hn, hn2]; rfl⟩
  exact (fdiv_rounded (i2f den) Config.TWO hf hf2 hx0 hy0 hlo hhi).1.finite

/-! ### The four conversions -/

/-- R193, R205: the nominal gyro is `r` over the binary64 number nearest 16.4, rounded once. -/
theorem gyroNominal_rounded (r : Half) :
    RoundedNearestEven (gyroNominal r) (r.toInt / f64Value Config.GYRO_NOMINAL_DIV) ∧ CleanF64 (gyroNominal r) := by
  have h := half_toInt_range r
  exact fdiv_i2f _ _ (by omega) (by decide) (by decide) (by rw [gyroDiv_value]; norm_num)
    (by rw [gyroDiv_value]; norm_num)

/-- R193, R205: the nominal accelerometer is `r / 8192` rounded once. -/
theorem accelNominal_rounded (r : Half) :
    RoundedNearestEven (accelNominal r) (r.toInt / 8192) ∧ CleanF64 (accelNominal r) := by
  have h := half_toInt_range r
  have := fdiv_i2f r.toInt Config.ACCEL_NOMINAL_DIV (by omega) (by decide) (by decide)
    (by rw [accelDiv_value]; norm_num) (by rw [accelDiv_value]; norm_num)
  rwa [accelDiv_value] at this

/-- R193: the nominal accelerometer is exact. -/
theorem accelNominal_exact (r : Half) : f64Value (accelNominal r) = r.toInt / 8192 := by
  have h := half_toInt_range r
  by_cases h0 : r.toInt = 0
  · have hz : f64Value 0 = 0 := (f64Mant_eq_zero_iff 0).mp (by decide)
    rw [accelNominal, h0, i2f_zero, fdiv_zero _ (by decide) (by rw [accelDiv_value]; norm_num) (by decide), hz]
    simp
  · obtain ⟨hv, hc⟩ := i2f_exact r.toInt (by omega)
    have hr := quotient_range (v := 8192) (one_le_abs_cast h0) (abs_cast_lt (a := r.toInt) (by omega))
      (by norm_num) (by norm_num)
    have hd2 : |f64Value Config.ACCEL_NOMINAL_DIV| = 8192 := by rw [accelDiv_value]; norm_num
    have hq : (r.toInt : ℚ) ≠ 0 := by exact_mod_cast h0
    have habs : |(r.toInt : ℚ)| = (r.toInt.natAbs : ℕ) := by
      rw [← Int.cast_abs, Int.abs_eq_natAbs, Int.cast_natCast]
    have e := fdiv_exact (i2f r.toInt) Config.ACCEL_NOMINAL_DIV hc.1 (by decide) (by rw [hv]; exact hq)
      (by rw [accelDiv_value]; norm_num) (by rw [hv, hd2]; exact hr.1) (by rw [hv, hd2]; exact hr.2)
      r.toInt.natAbs (-13) (by omega) (by rw [hv, hd2, habs]; norm_num; ring)
    rw [accelNominal, e.1, hv, accelDiv_value]

/-- R199: with a zero denominator the gyro output is the sample. -/
theorem gyroCal_guard (r bias p m sp sm : Half) (h : pairRange p m = 0) : gyroCal r bias p m sp sm = i2f r.toInt := by
  simp [gyroCal, h]

/-- R199: with a zero denominator the accelerometer output is the sample. -/
theorem accelCal_guard (r p m : Half) (h : pairRange p m = 0) : accelCal r p m = i2f r.toInt := by
  simp [accelCal, h]

/-- R194, R205: the calibrated gyro is the exact quotient rounded once. -/
theorem gyroCal_rounded (r bias p m sp sm : Half) (h : pairRange p m ≠ 0) :
    RoundedNearestEven (gyroCal r bias p m sp sm)
        (((r.toInt - bias.toInt) * (sp.toInt + sm.toInt) : ℤ) / (pairRange p m : ℚ)) ∧
      CleanF64 (gyroCal r bias p m sp sm) := by
  obtain ⟨hv, hf, hn, h1, h2⟩ := i2f_den _ h (pairRange_le p m)
  have hnum := gyroProduct_range r bias sp sm
  have := fdiv_i2f ((r.toInt - bias.toInt) * (sp.toInt + sm.toInt)) (i2f (pairRange p m)) (by omega) hf hn
    (by rw [hv]; linarith) (by rw [hv]; linarith)
  rw [hv] at this
  simpa only [gyroCal, if_neg h] using this

/-- R196, R205: the calibrated accelerometer is the exact quotient rounded once. -/
theorem accelCal_rounded (r p m : Half) (h : pairRange p m ≠ 0) :
    RoundedNearestEven (accelCal r p m) ((r.toInt - accelCenter p m : ℤ) / ((pairRange p m : ℚ) / 2)) ∧
      CleanF64 (accelCal r p m) := by
  obtain ⟨-, -, -, h1, h2⟩ := i2f_den _ h (pairRange_le p m)
  obtain ⟨hv, hf, hn⟩ := halfRange_exact _ h (pairRange_le p m)
  have hr := half_toInt_range r
  have hc := accelCenter_range p m
  have := fdiv_i2f (r.toInt - accelCenter p m) (fdiv (i2f (pairRange p m)) Config.TWO) (by omega) hf hn
    (by rw [hv]; linarith) (by rw [hv]; linarith)
  rw [hv] at this
  simpa only [accelCal, if_neg h] using this

/-- The sample itself, the guard's output, is clean. -/
theorem i2f_sample_clean (r : Half) : CleanF64 (i2f r.toInt) := by
  have h := half_toInt_range r
  exact (i2f_exact r.toInt (by omega)).2

theorem gyroCal_clean (r bias p m sp sm : Half) : CleanF64 (gyroCal r bias p m sp sm) := by
  by_cases h : pairRange p m = 0
  · rw [gyroCal_guard _ _ _ _ _ _ h]; exact i2f_sample_clean r
  · exact (gyroCal_rounded r bias p m sp sm h).2

theorem accelCal_clean (r p m : Half) : CleanF64 (accelCal r p m) := by
  by_cases h : pairRange p m = 0
  · rw [accelCal_guard _ _ _ h]; exact i2f_sample_clean r
  · exact (accelCal_rounded r p m h).2

/-- R206: no output of `calibrate` is a NaN, an infinity, -0.0 or subnormal. -/
theorem calibrate_clean (raw : IMURaw) (c : CalibrationData) : (calibrate raw c).Clean := by
  unfold calibrate
  split
  · exact ⟨gyroCal_clean .., gyroCal_clean .., gyroCal_clean .., accelCal_clean .., accelCal_clean ..,
      accelCal_clean ..⟩
  · exact ⟨(gyroNominal_rounded _).2, (gyroNominal_rounded _).2, (gyroNominal_rounded _).2,
      (accelNominal_rounded _).2, (accelNominal_rounded _).2, (accelNominal_rounded _).2⟩

end Sys2Proof.Machine
end

