-- ==== Sys2Proof/Laws/Memory.lean ====
section
/-! SUPPORT. The laws of the byte spaces: a read after a write, and that every operation keeps the canonical form. -/

namespace Sys2Proof.Machine

/-! ### Reads after writes -/

theorem readCells_insertCell (a : Nat) (b : Byte) (l : List Host.Cell) (x : Nat) :
    readCells (insertCell a b l) x = if x = a then some b else readCells l x := by
  induction l with
  | nil =>
    by_cases h : x = a
    · simp [insertCell, readCells, h]
    · simp [insertCell, readCells, h, Ne.symm h]
  | cons c rest ih =>
    obtain ⟨c, v⟩ := c
    rw [insertCell]
    split
    · rename_i hac
      by_cases hx : x = a
      · simp [readCells, hx]
      · simp [readCells, hx, Ne.symm hx]
    · split
      · rename_i hac; subst hac
        by_cases hx : x = a
        · simp [readCells, hx]
        · simp [readCells, hx, Ne.symm hx]
      · rename_i hac
        by_cases hc : c = x
        · subst hc; simp [readCells, Ne.symm hac]
        · simp [readCells, hc, ih]

/-- A read after a write: the value written at that index, the old one elsewhere. -/
@[simp] theorem Memory.read_write (m : Memory) (a : Nat) (b : Byte) (x : Nat) :
    (m.write a b).read x = if x = a then some b else m.read x :=
  readCells_insertCell a b m.cells x

@[simp] theorem Memory.read_empty (x : Nat) : Memory.empty.read x = none := rfl

@[simp] theorem Memory.writeBytes_nil (m : Memory) (a : Nat) : m.writeBytes a [] = m := rfl

theorem Memory.writeBytes_cons (m : Memory) (a : Nat) (b : Byte) (l : List Byte) :
    m.writeBytes a (b :: l) = (m.write a b).writeBytes (a + 1) l := rfl

/-- A read after writing consecutive bytes. -/
theorem Memory.read_writeBytes (m : Memory) (a : Nat) (l : List Byte) (x : Nat) :
    (m.writeBytes a l).read x = if a ≤ x ∧ x < a + l.length then l[x - a]? else m.read x := by
  induction l generalizing m a with
  | nil =>
    have h : ¬ (a ≤ x ∧ x < a + ([] : List Byte).length) := by simp
    rw [if_neg h, Memory.writeBytes_nil]
  | cons b rest ih =>
    rw [Memory.writeBytes_cons, ih, List.length_cons]
    rcases Nat.lt_trichotomy x a with h | h | h
    · rw [if_neg (by omega), if_neg (by omega), Memory.read_write, if_neg (by omega)]
    · subst h
      rw [if_neg (by omega), if_pos (by omega), Memory.read_write, if_pos rfl]
      simp
    · by_cases h2 : x < a + 1 + rest.length
      · rw [if_pos (by omega), if_pos (by omega)]
        obtain ⟨k, rfl⟩ : ∃ k, x = a + 1 + k := ⟨x - (a + 1), by omega⟩
        simp [show a + 1 + k - a = k + 1 by omega]
      · rw [if_neg (by omega), if_neg (by omega), Memory.read_write, if_neg (by omega)]

/-- Outside the bytes written, nothing changes. -/
theorem Memory.read_writeBytes_outside (m : Memory) (a : Nat) (l : List Byte) (x : Nat)
    (h : x < a ∨ a + l.length ≤ x) : (m.writeBytes a l).read x = m.read x := by
  rw [Memory.read_writeBytes, if_neg (by omega)]

/-- At the bytes written, the byte written. -/
theorem Memory.read_writeBytes_inside (m : Memory) (a : Nat) (l : List Byte) (k : Nat)
    (h : k < l.length) : (m.writeBytes a l).read (a + k) = some l[k] := by
  rw [Memory.read_writeBytes, if_pos (by omega), Nat.add_sub_cancel_left, List.getElem?_eq_getElem h]

/-! ### The canonical form -/

theorem mem_insertCell {a : Nat} {b : Byte} {l : List Host.Cell} {x : Nat}
    (h : x ∈ (insertCell a b l).map Prod.fst) : x = a ∨ x ∈ l.map Prod.fst := by
  induction l with
  | nil => simpa [insertCell] using h
  | cons c rest ih =>
    obtain ⟨c, v⟩ := c
    unfold insertCell at h
    split at h
    · simpa using h
    · split at h
      · rename_i hac; subst hac
        simp only [List.map_cons, List.mem_cons] at h ⊢
        tauto
      · simp only [List.map_cons, List.mem_cons] at h ⊢
        rcases h with h | h
        · exact .inr (.inl h)
        · rcases ih h with h | h
          · exact .inl h
          · exact .inr (.inr h)

theorem Memory.wf_empty : Memory.empty.wf := List.Pairwise.nil

/-- Writing a byte keeps the canonical form. -/
theorem Memory.wf_write {m : Memory} (h : m.wf) (a : Nat) (b : Byte) : (m.write a b).wf := by
  obtain ⟨l⟩ := m
  change ((insertCell a b l).map Prod.fst).Pairwise (· < ·)
  change (l.map Prod.fst).Pairwise (· < ·) at h
  induction l with
  | nil => simp [insertCell]
  | cons c rest ih =>
    obtain ⟨c, v⟩ := c
    rw [List.map_cons, List.pairwise_cons] at h
    obtain ⟨h1, h2⟩ := h
    unfold insertCell
    split
    · rename_i hac
      rw [List.map_cons, List.pairwise_cons]
      refine ⟨fun x hx => ?_, by rw [List.map_cons, List.pairwise_cons]; exact ⟨h1, h2⟩⟩
      rw [List.map_cons, List.mem_cons] at hx
      rcases hx with rfl | hx
      · exact hac
      · exact Nat.lt_trans hac (h1 x hx)
    · split
      · rename_i hac; subst hac
        rw [List.map_cons, List.pairwise_cons]; exact ⟨h1, h2⟩
      · rw [List.map_cons, List.pairwise_cons]
        refine ⟨fun x hx => ?_, ih h2⟩
        rcases mem_insertCell hx with rfl | hx
        · change c < x; omega
        · exact h1 x hx

/-- Writing consecutive bytes keeps the canonical form. -/
theorem Memory.wf_writeBytes {m : Memory} (h : m.wf) (a : Nat) (l : List Byte) :
    (m.writeBytes a l).wf := by
  induction l generalizing m a with
  | nil => exact h
  | cons b rest ih => exact ih (Memory.wf_write h a b) (a + 1)

theorem readCells_eq_none {l : List Host.Cell} {a : Nat} (h : ∀ x ∈ l.map Prod.fst, a < x) :
    readCells l a = none := by
  induction l with
  | nil => rfl
  | cons c rest ih =>
    obtain ⟨c, v⟩ := c
    have hc : a < c := h c (by simp)
    have hne : c ≠ a := by omega
    simp only [readCells, if_neg hne]
    exact ih fun x hx => h x (by simp [hx])

/-- Two spaces in canonical form that read alike are equal. -/
theorem Memory.ext_read {m n : Memory} (hm : m.wf) (hn : n.wf) (h : ∀ a, m.read a = n.read a) :
    m = n := by
  obtain ⟨l⟩ := m
  obtain ⟨k⟩ := n
  congr 1
  change (l.map Prod.fst).Pairwise (· < ·) at hm
  change (k.map Prod.fst).Pairwise (· < ·) at hn
  change ∀ a, readCells l a = readCells k a at h
  induction l generalizing k with
  | nil =>
    cases k with
    | nil => rfl
    | cons c rest => have := h c.1; simp [readCells] at this
  | cons c rest ih =>
    obtain ⟨c, v⟩ := c
    cases k with
    | nil => have := h c; simp [readCells] at this
    | cons d rest' =>
      obtain ⟨d, w⟩ := d
      rw [List.map_cons, List.pairwise_cons] at hm hn
      have hcd : c = d := by
        rcases Nat.lt_trichotomy c d with hlt | heq | hgt
        · have h1 := h c
          rw [readCells_eq_none (l := (d, w) :: rest') (a := c)] at h1
          · simp [readCells] at h1
          · intro x hx
            rw [List.map_cons, List.mem_cons] at hx
            rcases hx with rfl | hx
            · exact hlt
            · exact Nat.lt_trans hlt (hn.1 x hx)
        · exact heq
        · have h1 := h d
          rw [readCells_eq_none (l := (c, v) :: rest) (a := d)] at h1
          · simp [readCells] at h1
          · intro x hx
            rw [List.map_cons, List.mem_cons] at hx
            rcases hx with rfl | hx
            · exact hgt
            · exact Nat.lt_trans hgt (hm.1 x hx)
      subst hcd
      have hv : v = w := by simpa [readCells] using h c
      subst hv
      congr 1
      refine ih rest' hm.2 hn.2 fun a => ?_
      by_cases hac : c = a
      · subst hac
        rw [readCells_eq_none fun x hx => hm.1 x hx, readCells_eq_none fun x hx => hn.1 x hx]
      · simpa [readCells, hac] using h a

/-- Where a space holds a value, `bytes` is that value. -/
theorem Memory.bytes_of_read {m : Memory} {a : Nat} {b : Byte} (h : m.read a = some b) :
    m.bytes a = b := by simp [Memory.bytes, h]

end Sys2Proof.Machine
end

