-- ==== Sys2Proof/Laws/State.lean ====
section
/-! SUPPORT. One lemma per field and update: what each register operation, the status answer and the reset event
leave in each field of State, so that no later proof unfolds a record update. -/

namespace Sys2Proof.Machine

variable (s : State)

@[simp] theorem State.setIS_IS (v : InputState) : (s.setIS v).IS = v := rfl
@[simp] theorem State.setIS_CAL (v : InputState) : (s.setIS v).CAL = s.CAL := rfl
@[simp] theorem State.setIS_OS (v : InputState) : (s.setIS v).OS = s.OS := rfl
@[simp] theorem State.setIS_CI (v : InputState) : (s.setIS v).CI = s.CI := rfl
@[simp] theorem State.setIS_TXBUF (v : InputState) : (s.setIS v).TXBUF = s.TXBUF := rfl
@[simp] theorem State.setIS_RXBUF (v : InputState) : (s.setIS v).RXBUF = s.RXBUF := rfl
@[simp] theorem State.setIS_pending (v : InputState) : (s.setIS v).pending = s.pending := rfl
@[simp] theorem State.setIS_statuses (v : InputState) : (s.setIS v).statuses = s.statuses := rfl

@[simp] theorem State.setCAL_IS (v : CalibrationData) : (s.setCAL v).IS = s.IS := rfl
@[simp] theorem State.setCAL_CAL (v : CalibrationData) : (s.setCAL v).CAL = v := rfl
@[simp] theorem State.setCAL_OS (v : CalibrationData) : (s.setCAL v).OS = s.OS := rfl
@[simp] theorem State.setCAL_CI (v : CalibrationData) : (s.setCAL v).CI = s.CI := rfl
@[simp] theorem State.setCAL_TXBUF (v : CalibrationData) : (s.setCAL v).TXBUF = s.TXBUF := rfl
@[simp] theorem State.setCAL_RXBUF (v : CalibrationData) : (s.setCAL v).RXBUF = s.RXBUF := rfl
@[simp] theorem State.setCAL_pending (v : CalibrationData) : (s.setCAL v).pending = s.pending := rfl
@[simp] theorem State.setCAL_statuses (v : CalibrationData) : (s.setCAL v).statuses = s.statuses := rfl

@[simp] theorem State.setOS_IS (v : OutputState) : (s.setOS v).IS = s.IS := rfl
@[simp] theorem State.setOS_CAL (v : OutputState) : (s.setOS v).CAL = s.CAL := rfl
@[simp] theorem State.setOS_OS (v : OutputState) : (s.setOS v).OS = v := rfl
@[simp] theorem State.setOS_CI (v : OutputState) : (s.setOS v).CI = s.CI := rfl
@[simp] theorem State.setOS_TXBUF (v : OutputState) : (s.setOS v).TXBUF = s.TXBUF := rfl
@[simp] theorem State.setOS_RXBUF (v : OutputState) : (s.setOS v).RXBUF = s.RXBUF := rfl
@[simp] theorem State.setOS_pending (v : OutputState) : (s.setOS v).pending = s.pending := rfl
@[simp] theorem State.setOS_statuses (v : OutputState) : (s.setOS v).statuses = s.statuses := rfl

@[simp] theorem State.setCI_IS (v : CalibratedIMU) : (s.setCI v).IS = s.IS := rfl
@[simp] theorem State.setCI_CAL (v : CalibratedIMU) : (s.setCI v).CAL = s.CAL := rfl
@[simp] theorem State.setCI_OS (v : CalibratedIMU) : (s.setCI v).OS = s.OS := rfl
@[simp] theorem State.setCI_CI (v : CalibratedIMU) : (s.setCI v).CI = v := rfl
@[simp] theorem State.setCI_TXBUF (v : CalibratedIMU) : (s.setCI v).TXBUF = s.TXBUF := rfl
@[simp] theorem State.setCI_RXBUF (v : CalibratedIMU) : (s.setCI v).RXBUF = s.RXBUF := rfl
@[simp] theorem State.setCI_pending (v : CalibratedIMU) : (s.setCI v).pending = s.pending := rfl
@[simp] theorem State.setCI_statuses (v : CalibratedIMU) : (s.setCI v).statuses = s.statuses := rfl

@[simp] theorem State.setTXBUF_IS (v : Memory) : (s.setTXBUF v).IS = s.IS := rfl
@[simp] theorem State.setTXBUF_CAL (v : Memory) : (s.setTXBUF v).CAL = s.CAL := rfl
@[simp] theorem State.setTXBUF_OS (v : Memory) : (s.setTXBUF v).OS = s.OS := rfl
@[simp] theorem State.setTXBUF_CI (v : Memory) : (s.setTXBUF v).CI = s.CI := rfl
@[simp] theorem State.setTXBUF_TXBUF (v : Memory) : (s.setTXBUF v).TXBUF = v := rfl
@[simp] theorem State.setTXBUF_RXBUF (v : Memory) : (s.setTXBUF v).RXBUF = s.RXBUF := rfl
@[simp] theorem State.setTXBUF_pending (v : Memory) : (s.setTXBUF v).pending = s.pending := rfl
@[simp] theorem State.setTXBUF_statuses (v : Memory) : (s.setTXBUF v).statuses = s.statuses := rfl

@[simp] theorem State.setRXBUF_IS (v : Memory) : (s.setRXBUF v).IS = s.IS := rfl
@[simp] theorem State.setRXBUF_CAL (v : Memory) : (s.setRXBUF v).CAL = s.CAL := rfl
@[simp] theorem State.setRXBUF_OS (v : Memory) : (s.setRXBUF v).OS = s.OS := rfl
@[simp] theorem State.setRXBUF_CI (v : Memory) : (s.setRXBUF v).CI = s.CI := rfl
@[simp] theorem State.setRXBUF_TXBUF (v : Memory) : (s.setRXBUF v).TXBUF = s.TXBUF := rfl
@[simp] theorem State.setRXBUF_RXBUF (v : Memory) : (s.setRXBUF v).RXBUF = v := rfl
@[simp] theorem State.setRXBUF_pending (v : Memory) : (s.setRXBUF v).pending = s.pending := rfl
@[simp] theorem State.setRXBUF_statuses (v : Memory) : (s.setRXBUF v).statuses = s.statuses := rfl

@[simp] theorem State.setPending_IS (v : List HostAction) : (s.setPending v).IS = s.IS := rfl
@[simp] theorem State.setPending_CAL (v : List HostAction) : (s.setPending v).CAL = s.CAL := rfl
@[simp] theorem State.setPending_OS (v : List HostAction) : (s.setPending v).OS = s.OS := rfl
@[simp] theorem State.setPending_CI (v : List HostAction) : (s.setPending v).CI = s.CI := rfl
@[simp] theorem State.setPending_TXBUF (v : List HostAction) : (s.setPending v).TXBUF = s.TXBUF := rfl
@[simp] theorem State.setPending_RXBUF (v : List HostAction) : (s.setPending v).RXBUF = s.RXBUF := rfl
@[simp] theorem State.setPending_pending (v : List HostAction) : (s.setPending v).pending = v := rfl
@[simp] theorem State.setPending_statuses (v : List HostAction) : (s.setPending v).statuses = s.statuses := rfl

@[simp] theorem respond_IS (st : Status) : (respond st s).IS = s.IS := rfl
@[simp] theorem respond_CAL (st : Status) : (respond st s).CAL = s.CAL := rfl
@[simp] theorem respond_OS (st : Status) : (respond st s).OS = s.OS := rfl
@[simp] theorem respond_CI (st : Status) : (respond st s).CI = s.CI := rfl
@[simp] theorem respond_TXBUF (st : Status) : (respond st s).TXBUF = s.TXBUF := rfl
@[simp] theorem respond_RXBUF (st : Status) : (respond st s).RXBUF = s.RXBUF := rfl
@[simp] theorem respond_pending (st : Status) : (respond st s).pending = s.pending := rfl
@[simp] theorem respond_statuses (st : Status) : (respond st s).statuses = s.statuses ++ [st] := rfl

@[simp] theorem resetBlock_IS : (resetBlock s).IS = .reset := rfl
@[simp] theorem resetBlock_CAL : (resetBlock s).CAL = .reset := rfl
@[simp] theorem resetBlock_OS : (resetBlock s).OS = .reset := rfl
@[simp] theorem resetBlock_CI : (resetBlock s).CI = .reset := rfl
@[simp] theorem resetBlock_TXBUF : (resetBlock s).TXBUF = .empty := rfl
@[simp] theorem resetBlock_RXBUF : (resetBlock s).RXBUF = s.RXBUF := rfl
@[simp] theorem resetBlock_pending : (resetBlock s).pending = s.pending := rfl
@[simp] theorem resetBlock_statuses : (resetBlock s).statuses = s.statuses := rfl

/-- Returning a status changes nothing but the record of statuses (R235). -/
theorem respond_eq (st : Status) : respond st s = { s with statuses := s.statuses ++ [st] } := rfl

end Sys2Proof.Machine
end

