-- ==== Sys2Proof/Laws/Report.lean ====
section
/-! SUPPORT. Everything the shared report decoder can answer (R111, R171, R234), which bytes the two records depend
on (R57, R90), and the values of the field forms (R77 to R82). -/

namespace Sys2Proof.Machine

section Decoder
variable {α : Type} {minLen : Nat} {tag : Byte} {indices : List Nat} {needs : Nat → Bool}
  {fields : (Nat → Byte) → α} {rx : Memory} {len : Nat}

/-- Too short: no byte is looked at. -/
theorem decodeReport_short (h : len < minLen) :
    decodeReport minLen tag indices needs fields rx len = .error .tooShort := by
  simp [decodeReport, h]

/-- A wrong tag: only byte 0 is looked at. -/
theorem decodeReport_badTag (h : minLen ≤ len) {t : Byte} (ht : rx.read 0 = some t) (hne : t ≠ tag) :
    decodeReport minLen tag indices needs fields rx len = .error .unexpectedReportId := by
  simp [decodeReport, Nat.not_lt.mpr h, ht, hne]

/-- Long enough, rightly tagged, every needed byte there: the fields of the bytes. -/
theorem decodeReport_good (h : minLen ≤ len) (ht : rx.read 0 = some tag)
    (hb : ∀ a ∈ indices, needs a = true → (rx.read a).isSome = true) :
    decodeReport minLen tag indices needs fields rx len = .ok (fields rx.bytes) := by
  have hf : indices.find? (fun a => (rx.read a).isNone && needs a) = none := by
    rw [List.find?_eq_none]
    intro a ha hn
    rw [Bool.and_eq_true] at hn
    have := hb a ha hn.2
    simp_all
  simp [decodeReport, Nat.not_lt.mpr h, ht, hf]

/-- The decoder has an answer `ok` in that case only. -/
theorem decodeReport_ok {v : α} (h : decodeReport minLen tag indices needs fields rx len = .ok v) :
    minLen ≤ len ∧ rx.read 0 = some tag ∧
      (∀ a ∈ indices, needs a = true → (rx.read a).isSome = true) ∧ v = fields rx.bytes := by
  unfold decodeReport at h
  split at h
  · cases h
  · rename_i hl
    split at h
    · cases h
    · rename_i t ht
      split at h
      · cases h
      · rename_i heq
        split at h
        · cases h
        · rename_i hf
          rw [List.find?_eq_none] at hf
          refine ⟨Nat.not_lt.mp hl, by rw [ht, Decidable.not_not.mp heq], fun a ha hn => ?_, by cases h; rfl⟩
          have := hf a ha
          simpa [hn, ← Option.isSome_iff_ne_none] using this

/-- The two errors, in the order of R234. -/
theorem decodeReport_error {st : Status} (h : decodeReport minLen tag indices needs fields rx len = .error st) :
    (len < minLen ∧ st = .tooShort) ∨
      (minLen ≤ len ∧ (∃ t, rx.read 0 = some t ∧ t ≠ tag) ∧ st = .unexpectedReportId) := by
  unfold decodeReport at h
  split at h
  · rename_i hl; cases h; exact .inl ⟨hl, rfl⟩
  · rename_i hl
    split at h
    · cases h
    · rename_i t ht
      split at h
      · rename_i hne; cases h; exact .inr ⟨Nat.not_lt.mp hl, ⟨t, ht, hne⟩, rfl⟩
      · split at h <;> cases h

/-- A byte the host never supplied: byte 0, or a needed byte of a rightly tagged report. -/
theorem decodeReport_noByte {a : Nat} (h : decodeReport minLen tag indices needs fields rx len = .noByte a) :
    minLen ≤ len ∧ rx.read a = none ∧ (a = 0 ∨ rx.read 0 = some tag ∧ a ∈ indices ∧ needs a = true) := by
  unfold decodeReport at h
  split at h
  · cases h
  · rename_i hl
    split at h
    · rename_i h0; cases h; exact ⟨Nat.not_lt.mp hl, h0, .inl rfl⟩
    · rename_i t ht
      split at h
      · cases h
      · rename_i heq
        split at h
        · rename_i b hf
          cases h
          have hp := List.find?_some hf
          rw [Bool.and_eq_true] at hp
          exact ⟨Nat.not_lt.mp hl, by simpa using hp.1,
            .inr ⟨by rw [ht, Decidable.not_not.mp heq], List.mem_of_find?_eq_some hf, hp.2⟩⟩
        · cases h

end Decoder

/-! ### Which bytes a record depends on -/

theorem fingerAt_congr {b b' : Nat → Byte} {f : Nat} (h : ∀ k, k < 4 → b (f + k) = b' (f + k)) :
    fingerAt b f = fingerAt b' f := by
  have h0 := h 0 (by omega)
  have h1 := h 1 (by omega)
  have h2 := h 2 (by omega)
  have h3 := h 3 (by omega)
  rw [Nat.add_zero] at h0
  simp [fingerAt, h0, h1, h2, h3]

/-- R57, R90, R124, R126: the InputState depends on the bytes read only. -/
theorem inputRecord_congr (tv : TouchVariant) {b b' : Nat → Byte}
    (h : ∀ a ∈ inputIndicesRead tv, b a = b' a) :
    inputRecord tv Config.BASE b = inputRecord tv Config.BASE b' := by
  have hu : ∀ a, a ∈ inputIndicesRead tv → a + 1 ∈ inputIndicesRead tv → u16le b a = u16le b' a := by
    intro a h1 h2
    rw [u16le, u16le, h a h1, h (a + 1) h2]
  have hf : ∀ f, (∀ k, k < 4 → f + k ∈ inputIndicesRead tv) → fingerAt b f = fingerAt b' f :=
    fun f hk => fingerAt_congr fun k hlt => h _ (hk k hlt)
  cases tv <;>
  · simp only [inputRecord, s16le, touchCount, touchCounter, fingerBase]
    congr 1 <;> first
      | exact h _ (by decide)
      | exact hu _ (by decide) (by decide)
      | exact hf _ (by decide)
      | (rw [h]; decide)

/-- R57, R90, R182: the CalibrationData depends on indices 1 to 34 only. -/
theorem calibrationRecord_congr {b b' : Nat → Byte} (h : ∀ a ∈ calibrationIndices, b a = b' a) :
    calibrationRecord b = calibrationRecord b' := by
  have hs : ∀ a, a ∈ calibrationIndices → a + 1 ∈ calibrationIndices → s16le b a = s16le b' a := by
    intro a h1 h2
    rw [s16le, s16le, u16le, u16le, h a h1, h (a + 1) h2]
  have hc : calibrationConstants b = calibrationConstants b' := by
    unfold calibrationConstants
    rw [hs 1 (by decide) (by decide), hs 3 (by decide) (by decide), hs 5 (by decide) (by decide),
      hs 7 (by decide) (by decide), hs 9 (by decide) (by decide), hs 11 (by decide) (by decide),
      hs 13 (by decide) (by decide), hs 15 (by decide) (by decide), hs 17 (by decide) (by decide),
      hs 19 (by decide) (by decide), hs 21 (by decide) (by decide), hs 23 (by decide) (by decide),
      hs 25 (by decide) (by decide), hs 27 (by decide) (by decide), hs 29 (by decide) (by decide),
      hs 31 (by decide) (by decide), hs 33 (by decide) (by decide)]
  rw [calibrationRecord, calibrationRecord, hc]

/-- Every index DECIN reads lies below its minimum length (R57). -/
theorem inputIndicesRead_lt (tv : TouchVariant) : ∀ a ∈ inputIndicesRead tv, a < Config.IN_MIN_LEN := by
  cases tv <;> decide

/-- Every index DECCAL reads lies below its minimum length (R57). -/
theorem calibrationIndices_lt : ∀ a ∈ calibrationIndices, a < Config.CAL_MIN_LEN := by decide

theorem mem_inputIndicesRead {tv : TouchVariant} {a : Nat} :
    a ∈ inputIndicesRead tv ↔
      a ∈ inputOffsets.map (Config.BASE + ·) ∧ inputNeeds tv Config.BASE a = true := by
  rw [inputIndicesRead, List.mem_filter]

/-! ### Values of the field forms -/

/-- R77: the unsigned value of `u16le`. -/
theorem u16le_toNat (b : Nat → Byte) (a : Nat) : (u16le b a).toNat = (b a).toNat + 256 * (b (a + 1)).toNat := by
  rw [u16le, BitVec.toNat_append, ← Nat.shiftLeft_add_eq_or_of_lt (b a).isLt, Nat.shiftLeft_eq]
  omega

/-- R78: the signed value of `s16le`. -/
theorem s16le_toInt (b : Nat → Byte) (a : Nat) :
    (s16le b a).toInt =
      if (b a).toNat + 256 * (b (a + 1)).toNat < 32768 then ((b a).toNat + 256 * (b (a + 1)).toNat : ℤ)
      else ((b a).toNat + 256 * (b (a + 1)).toNat : ℤ) - 65536 := by
  rw [BitVec.toInt_eq_toNat_cond, s16le, u16le_toNat]
  push_cast
  split <;> split <;> omega

end Sys2Proof.Machine
end

