-- ==== Sys2Proof/Laws/Exec.lean ====
section
/-! SUPPORT. Everything each operation can answer, and everything a step can do. Later proofs cite these and do not
unfold the meanings. -/

namespace Sys2Proof.Machine

/-! ### The shared answer -/

theorem answer_next {α : Type} {r : Decoded α} {commit : α → State} {s t : State} (h : answer r commit s = .next t) :
    (∃ v, r = .ok v ∧ t = respond .ok (commit v)) ∨ (∃ st, r = .error st ∧ t = respond st s) := by
  cases r with
  | ok v => exact .inl ⟨v, rfl, by cases h; rfl⟩
  | error st => exact .inr ⟨st, rfl, by cases h; rfl⟩
  | noByte a => cases h

/-! ### The operations -/

theorem exec_encout (s : State) :
    exec .encout s = .next (respond .ok (s.setTXBUF (s.TXBUF.writeBytes 0 (encodeOutput s.OS).toList))) := rfl

theorem exec_calib (s : State) :
    exec .calib s = .next (respond .ok (s.setCI (calibrate (rawOf s.IS) s.CAL))) := rfl

theorem exec_ldout (heavy light ledR ledG ledB flashOn flashOff : Byte) (s : State) :
    exec (.ldout heavy light ledR ledG ledB flashOn flashOff) s =
      .next (respond .ok (s.setOS
        { heavy := heavy, light := light, led_r := ledR, led_g := ledG, led_b := ledB
          flash_on := flashOn, flash_off := flashOff })) := rfl

theorem exec_decin (len : Nat) (s : State) :
    exec (.decin len) s = answer (decodeInput Config.touchVariant s.RXBUF len) s.setIS s := rfl

theorem exec_deccal (len : Nat) (s : State) :
    exec (.deccal len) s = answer (decodeCal s.RXBUF len) s.setCAL s := rfl

/-- DECIN under a known touch variant. -/
theorem execDecin_eq {tv : TouchVariant} (h : Config.touchVariant = tv) (len : Nat) (s : State) :
    exec (.decin len) s = execDecinUnder tv len s := by rw [← h]; rfl

/-- R110, R125: DECIN wrote `IS` and returned OK, or changed nothing and returned an error. -/
theorem exec_decin_next {len : Nat} {s t : State} (h : exec (.decin len) s = .next t) :
    (∃ v, decodeInput Config.touchVariant s.RXBUF len = .ok v ∧ t = respond .ok (s.setIS v)) ∨
      (∃ st, decodeInput Config.touchVariant s.RXBUF len = .error st ∧ t = respond st s) :=
  answer_next h

/-- R170, R179: DECCAL wrote `CAL` and returned OK, or changed nothing and returned an error. -/
theorem exec_deccal_next {len : Nat} {s t : State} (h : exec (.deccal len) s = .next t) :
    (∃ v, decodeCal s.RXBUF len = .ok v ∧ t = respond .ok (s.setCAL v)) ∨
      (∃ st, decodeCal s.RXBUF len = .error st ∧ t = respond st s) :=
  answer_next h

/-- What each operation can have done when it answers a next state (R46): it returned one status, and it wrote at
most its own register. What ENCOUT and CALIB wrote is a variable with an equation, so that a goal about the other
parts of the state never unfolds it. -/
inductive Effect (s : State) : Instr → State → Prop where
  | decinOk (len : Nat) (v : InputState) : decodeInput Config.touchVariant s.RXBUF len = .ok v →
      Effect s (.decin len) (respond .ok (s.setIS v))
  | decinError (len : Nat) (st : Status) : decodeInput Config.touchVariant s.RXBUF len = .error st →
      Effect s (.decin len) (respond st s)
  | encout (m : Memory) : m = s.TXBUF.writeBytes 0 (encodeOutput s.OS).toList →
      Effect s .encout (respond .ok (s.setTXBUF m))
  | deccalOk (len : Nat) (v : CalibrationData) : decodeCal s.RXBUF len = .ok v →
      Effect s (.deccal len) (respond .ok (s.setCAL v))
  | deccalError (len : Nat) (st : Status) : decodeCal s.RXBUF len = .error st →
      Effect s (.deccal len) (respond st s)
  | calib (v : CalibratedIMU) : v = calibrate (rawOf s.IS) s.CAL → Effect s .calib (respond .ok (s.setCI v))
  | ldout (a b c d e f g : Byte) : Effect s (.ldout a b c d e f g) (respond .ok (s.setOS ⟨a, b, c, d, e, f, g⟩))

/-- The one inversion lemma of `exec`. -/
theorem exec_effect {i : Instr} {s t : State} (h : exec i s = .next t) : Effect s i t := by
  cases i with
  | decin len =>
    obtain ⟨v, hv, rfl⟩ | ⟨st, hst, rfl⟩ := exec_decin_next h
    · exact .decinOk len v hv
    · exact .decinError len st hst
  | encout => cases h; exact .encout _ rfl
  | deccal len =>
    obtain ⟨v, hv, rfl⟩ | ⟨st, hst, rfl⟩ := exec_deccal_next h
    · exact .deccalOk len v hv
    · exact .deccalError len st hst
  | calib => cases h; exact .calib _ rfl
  | ldout a b c d e f g => cases h; exact .ldout a b c d e f g

/-! ### Completion of the two decoders -/

/-- DECIN with every byte below `len` supplied answers a next state. -/
theorem exec_decin_supplied {len : Nat} {s : State} (h : Supplied s.RXBUF len) :
    ∃ t, exec (.decin len) s = .next t := by
  rw [exec_decin]
  cases hd : decodeInput Config.touchVariant s.RXBUF len with
  | ok v => exact ⟨_, rfl⟩
  | error st => exact ⟨_, rfl⟩
  | noByte a =>
    obtain ⟨hl, hn, hcase⟩ := decodeReport_noByte hd
    have hlt : a < len := by
      rcases hcase with rfl | ⟨-, hm, hneed⟩
      · exact lt_of_lt_of_le (by decide : 0 < Config.IN_MIN_LEN) hl
      · exact lt_of_lt_of_le (inputIndicesRead_lt _ a (mem_inputIndicesRead.mpr ⟨hm, hneed⟩)) hl
    have := h a hlt
    simp [hn] at this

/-- DECCAL with every byte below `len` supplied answers a next state. -/
theorem exec_deccal_supplied {len : Nat} {s : State} (h : Supplied s.RXBUF len) :
    ∃ t, exec (.deccal len) s = .next t := by
  rw [exec_deccal]
  cases hd : decodeCal s.RXBUF len with
  | ok v => exact ⟨_, rfl⟩
  | error st => exact ⟨_, rfl⟩
  | noByte a =>
    obtain ⟨hl, hn, hcase⟩ := decodeReport_noByte hd
    have hlt : a < len := by
      rcases hcase with rfl | ⟨-, hm, -⟩
      · exact lt_of_lt_of_le (by decide : 0 < Config.CAL_MIN_LEN) hl
      · exact lt_of_lt_of_le (calibrationIndices_lt a hm) hl
    have := h a hlt
    simp [hn] at this

/-! ### Accepted reports -/

/-- R111: a report that is long enough and rightly tagged decodes to the fields of its bytes. -/
theorem decodeInput_holds (tv : TouchVariant) {rx : Memory} {len : Nat} {b : Nat → Byte} (hl : 64 ≤ len)
    (hb : Holds rx len b) (ht : b 0 = 0x01) : decodeInput tv rx len = .ok (inputRecord tv 1 b) := by
  have hlt : ∀ a ∈ inputIndicesRead tv, a < len := fun a ha => lt_of_lt_of_le (inputIndicesRead_lt tv a ha) hl
  have h0 : rx.read 0 = some Config.IN_TAG := by rw [hb 0 (by omega), ht]; rfl
  have hgood : decodeInput tv rx len = .ok (inputRecord tv Config.BASE rx.bytes) :=
    decodeReport_good hl h0 fun a ha hn => by
      rw [hb a (hlt a (mem_inputIndicesRead.mpr ⟨ha, hn⟩))]; rfl
  rw [hgood, inputRecord_congr tv fun a ha => Memory.bytes_of_read (hb a (hlt a ha))]
  rfl

/-- R171: the same for a calibration record. -/
theorem decodeCal_holds {rx : Memory} {len : Nat} {b : Nat → Byte} (hl : 37 ≤ len) (hb : Holds rx len b)
    (ht : b 0 = 0x02) : decodeCal rx len = .ok (calibrationRecord b) := by
  have hlt : ∀ a ∈ calibrationIndices, a < len := fun a ha => lt_of_lt_of_le (calibrationIndices_lt a ha) hl
  have h0 : rx.read 0 = some Config.CAL_TAG := by rw [hb 0 (by omega), ht]; rfl
  have hgood : decodeCal rx len = .ok (calibrationRecord rx.bytes) :=
    decodeReport_good hl h0 fun a ha _ => by rw [hb a (hlt a ha)]; rfl
  rw [hgood, calibrationRecord_congr fun a ha => Memory.bytes_of_read (hb a (hlt a ha))]

/-- R110: DECIN of an accepted report. -/
theorem exec_decin_accepted {s : State} {len : Nat} {b : Nat → Byte} (h : InputAccepted s len b) :
    exec (.decin len) s = .next (respond .ok (s.setIS (inputRecord Config.touchVariant 1 b))) := by
  rw [exec_decin, decodeInput_holds _ h.long h.holds h.tag]; rfl

/-- R170: DECCAL of an accepted record. -/
theorem exec_deccal_accepted {s : State} {len : Nat} {b : Nat → Byte} (h : RecordAccepted s len b) :
    exec (.deccal len) s = .next (respond .ok (s.setCAL (calibrationRecord b))) := by
  rw [exec_deccal, decodeCal_holds h.long h.holds h.tag]; rfl

/-! ### The written output report -/

/-- R153: index `a` of a space after ENCOUT wrote the report of `o`. -/
theorem read_encoded (m : Memory) (o : OutputState) (a : Nat) (h : a < 32) :
    (m.writeBytes 0 (encodeOutput o).toList).read a = some (encodeOutput o)[a] := by
  have := Memory.read_writeBytes_inside m 0 (encodeOutput o).toList a (by simpa using h)
  simpa using this

theorem read_encoded_outside (m : Memory) (o : OutputState) (a : Nat) (h : 32 ≤ a) :
    (m.writeBytes 0 (encodeOutput o).toList).read a = m.read a :=
  Memory.read_writeBytes_outside m 0 _ a (.inr (by simpa using h))

/-- R66: a report written over nothing, or over a whole report, leaves exactly that report. -/
theorem encoded_over {m : Memory} (h : m = Memory.empty ∨ ∃ o, m = Memory.empty.writeBytes 0 (encodeOutput o).toList)
    (o : OutputState) :
    m.writeBytes 0 (encodeOutput o).toList = Memory.empty.writeBytes 0 (encodeOutput o).toList := by
  have hm : m.wf ∧ ∀ a, 32 ≤ a → m.read a = none := by
    rcases h with rfl | ⟨o', rfl⟩
    · exact ⟨Memory.wf_empty, fun _ _ => rfl⟩
    · exact ⟨Memory.wf_writeBytes Memory.wf_empty _ _, fun a ha => read_encoded_outside _ _ a ha⟩
  refine Memory.ext_read (Memory.wf_writeBytes hm.1 _ _) (Memory.wf_writeBytes Memory.wf_empty _ _) fun a => ?_
  rcases Nat.lt_or_ge a 32 with ha | ha
  · rw [read_encoded m o a ha, read_encoded Memory.empty o a ha]
  · rw [read_encoded_outside m o a ha, read_encoded_outside Memory.empty o a ha, hm.2 a ha]; rfl

/-! ### The step -/

theorem step_nil {s : State} (h : s.pending = []) : step s = .next s := by simp [step, h]

theorem step_cons {s : State} {x : HostAction} {rest : List HostAction} (h : s.pending = x :: rest) :
    step s = runAction x (s.setPending rest) := by simp [step, h]

/-- The one inversion lemma of the step: it waited, or took the oldest action of the host, which loaded bytes below
`RX_CAP`, reset the block, ran an operation, or was answered IllegalOp. -/
theorem step_cases {s t : State} (h : step s = .next t) :
    (s.pending = [] ∧ t = s) ∨
      ∃ x rest, s.pending = x :: rest ∧
        ((∃ a bs, x = .loadRx a bs ∧ a + bs.length ≤ Config.rxCap ∧
            t = (s.setPending rest).setRXBUF (s.RXBUF.writeBytes a bs)) ∨
          (x = .reset ∧ t = resetBlock (s.setPending rest)) ∨
          (∃ c i, x = .command c ∧ decode c = .ok i ∧ Effect (s.setPending rest) i t) ∨
          (∃ c op, x = .command c ∧ decode c = .error (.illegalOp op) ∧
            t = respond .illegalOp (s.setPending rest))) := by
  cases hp : s.pending with
  | nil => rw [step_nil hp] at h; cases h; exact .inl ⟨rfl, rfl⟩
  | cons x rest =>
    rw [step_cons hp] at h
    refine .inr ⟨x, rest, rfl, ?_⟩
    cases x with
    | loadRx a bs =>
      simp only [runAction, runLoadRx] at h
      split at h
      · rename_i hle; cases h; exact .inl ⟨a, bs, rfl, hle, rfl⟩
      · cases h
    | reset => cases h; exact .inr (.inl ⟨rfl, rfl⟩)
    | command c =>
      simp only [runAction, runCommand] at h
      split at h
      · rename_i i hd; exact .inr (.inr (.inl ⟨c, i, rfl, hd, exec_effect h⟩))
      · rename_i op hd; cases h; exact .inr (.inr (.inr ⟨c, op, rfl, hd, rfl⟩))
      · cases h

end Sys2Proof.Machine
end

