-- ==== Sys2Proof/Laws/PerInstr.lean ====
section
/-! SUPPORT. Statements made for every operation, one lemma per constructor. -/

/-- R70, R71: decoding the command of a well-formed operation gives the operation back. -/
def Sys2Proof.Laws.Encoding.Statement (i : Sys2Proof.Instr) : Prop :=
  i.wellFormed = true → Sys2Proof.decode (Sys2Proof.encode i) = .ok i

theorem Sys2Proof.Laws.Encoding.decin (len : Nat) :
    Sys2Proof.Laws.Encoding.Statement (.decin len) := fun h =>
  Sys2Proof.withLen_ok (of_decide_eq_true h)

theorem Sys2Proof.Laws.Encoding.encout : Sys2Proof.Laws.Encoding.Statement .encout := fun _ => rfl

theorem Sys2Proof.Laws.Encoding.deccal (len : Nat) :
    Sys2Proof.Laws.Encoding.Statement (.deccal len) := fun h =>
  Sys2Proof.withLen_ok (of_decide_eq_true h)

theorem Sys2Proof.Laws.Encoding.calib : Sys2Proof.Laws.Encoding.Statement .calib := fun _ => rfl

theorem Sys2Proof.Laws.Encoding.ldout (heavy light ledR ledG ledB flashOn flashOff : Sys2Proof.Byte) :
    Sys2Proof.Laws.Encoding.Statement (.ldout heavy light ledR ledG ledB flashOn flashOff) := fun _ => rfl
end

