-- ==== Sys2Proof/Tests/Slice0.lean ====
section
/-! SUPPORT. Tests on the spec's own vectors (spec/95_test_vectors.md), the smoke test of `wellFormed`, decoding of words
written out from R70, R71 and R150, and for every statement that has hypotheses a witness that meets them. -/

namespace Sys2Proof.Tests

open Sys2Proof.Machine

/-! ### Small states -/

/-- V-IN3: every field distinct. -/
def vIn3 : List Byte :=
  [0x01, 0x12, 0x34, 0xAB, 0xCD, 0xA3, 0x95, 0xB6, 0x40, 0xFF, 0x34, 0x12, 0x1F, 0xFF, 0xFF, 0x00,
    0x80, 0xFF, 0x7F, 0x00, 0x20, 0x9C, 0xFF, 0x68, 0x06, 0xDE, 0xAD, 0xBE, 0xEF, 0x55, 0xFB, 0xAA,
    0x55, 0x01, 0x5C, 0x05, 0x7F, 0xE7, 0x3A, 0xFF, 0x34, 0x12, 0x56, 0xEE, 0xEE, 0xEE, 0xEE, 0xEE,
    0xEE, 0xEE, 0xEE, 0xEE, 0xEE, 0xEE, 0xEE, 0xEE, 0xEE, 0xEE, 0xEE, 0xEE, 0xEE, 0xEE, 0xEE, 0xEE]

/-- V-CAL1: a valid record. -/
def vCal1 : List Byte :=
  [0x02, 0x01, 0x00, 0xFE, 0xFF, 0x03, 0x00, 0x87, 0x22, 0x77, 0xDD, 0x92, 0x22, 0x72, 0xDD, 0x9C,
    0x22, 0x65, 0xDD, 0x1C, 0x02, 0x1C, 0x02, 0x00, 0x20, 0x00, 0xE0, 0xFE, 0x1F, 0xFD, 0xDF, 0xA4,
    0x1F, 0x94, 0xDF, 0xC3, 0x5A]

/-- V-CAL2: accelerometer Y has plus = minus. -/
def vCal2 : List Byte :=
  [0x02, 0x01, 0x00, 0xFE, 0xFF, 0x03, 0x00, 0x87, 0x22, 0x77, 0xDD, 0x92, 0x22, 0x72, 0xDD, 0x9C,
    0x22, 0x65, 0xDD, 0x1C, 0x02, 0x1C, 0x02, 0x00, 0x20, 0x00, 0xE0, 0x7B, 0x00, 0x7B, 0x00, 0xA4,
    0x1F, 0x94, 0xDF, 0xC3, 0x5A]

/-- V-CAL3: extremes. -/
def vCal3 : List Byte :=
  [0x02, 0xFF, 0x7F, 0x00, 0x80, 0x00, 0x00, 0xFF, 0x7F, 0x00, 0x80, 0x00, 0x80, 0xFF, 0x7F, 0x01,
    0x00, 0x00, 0x00, 0x00, 0x80, 0x00, 0x80, 0xFD, 0xFF, 0xFC, 0xFF, 0xFC, 0xFF, 0xFD, 0xFF, 0xFF,
    0x7F, 0x00, 0x80, 0xC3, 0x5A]

/-- The bytes of a list as a function of the index. -/
def bytesOf (l : List Byte) : Nat → Byte := fun a => l.getD a 0

/-- Right after reset, with the host's bytes in `RXBUF`. -/
def rxState (l : List Byte) : State := State.reset.setRXBUF (Memory.empty.writeBytes 0 l)

/-- Right after reset, with the host about to act. -/
def pendingState (q : List HostAction) : State := State.reset.setPending q

/-- Right after reset, with calibration data. -/
def calState (c : CalibrationData) : State := State.reset.setCAL c

/-- The calibration data of a record. -/
def calOf (l : List Byte) : CalibrationData := calibrationRecord (bytesOf l)

/-- A command that uses no `arg`. -/
def cmd (op : Byte) (len : Nat) : Command := { op := op, len := len, arg := noArg }

theorem holds_rxState (l : List Byte) : Holds (rxState l).RXBUF l.length (bytesOf l) := by
  intro a ha
  have := Memory.read_writeBytes_inside Memory.empty 0 l a ha
  rw [Nat.zero_add] at this
  rw [rxState, State.setRXBUF_RXBUF, this]
  simp [bytesOf, ha]

theorem holds_rxState_fun (f : Nat → Byte) (n : Nat) : Holds (rxState ((List.range n).map f)).RXBUF n f := by
  intro a ha
  rw [holds_rxState _ a (by simpa using ha)]
  simp [bytesOf, ha]

theorem holds_supplied {rx : Memory} {len : Nat} {b : Nat → Byte} (h : Holds rx len b) : Supplied rx len := by
  intro a ha; rw [h a ha]; rfl

theorem accepted_vIn3 : InputAccepted (rxState vIn3) 64 (bytesOf vIn3) :=
  ⟨le_refl _, holds_rxState vIn3, by decide⟩

theorem accepted_vCal1 : RecordAccepted (rxState vCal1) 37 (bytesOf vCal1) :=
  ⟨le_refl _, holds_rxState vCal1, by decide⟩

theorem le_rxCap {n : Nat} (h : n ≤ 64) : n ≤ Config.rxCap := by unfold Config.rxCap; omega

/-! ### Well-formedness: R70 -/

theorem test_wellFormed_refuses_len_beyond_capacity :
    (Instr.decin (Config.rxCap + 1)).wellFormed = false ∧ (Instr.deccal (Config.rxCap + 1)).wellFormed = false := by
  simp [Instr.wellFormed]

theorem test_wellFormed_accepts :
    (Instr.decin Config.rxCap).wellFormed = true ∧ (Instr.deccal 0).wellFormed = true ∧
      Instr.encout.wellFormed = true ∧ Instr.calib.wellFormed = true ∧
      (Instr.ldout 0xFF 0xFF 0xFF 0xFF 0xFF 0xFF 0xFF).wellFormed = true := by
  simp [Instr.wellFormed]

/-! ### Decoding: `op` in the lowest byte (R71), `arg[0]` next (R150), `len` above (R70; programs P1 to P3) -/

theorem test_decode_decin_64 : decodeWord 0x40_00000000000000_01 = .ok (.decin 64) := by
  show withLen 64 .decin = _
  rw [withLen_ok (le_rxCap (by omega))]

theorem test_decode_encout : decodeWord 0x02 = .ok .encout := by decide

theorem test_decode_deccal_37 : decodeWord 0x25_00000000000000_03 = .ok (.deccal 37) := by
  show withLen 37 .deccal = _
  rw [withLen_ok (le_rxCap (by omega))]

theorem test_decode_calib : decodeWord 0x04 = .ok .calib := by decide

/-- P3, step 1: `LDOUT AA, 55, 11, 22, 33, 44, 66`. -/
theorem test_decode_ldout : decodeWord 0x66_44_33_22_11_55_AA_05 = .ok (.ldout 0xAA 0x55 0x11 0x22 0x33 0x44 0x66) := by
  decide

/-- P3, step 6. -/
theorem test_decode_illegal : decodeWord 0x07 = .error (.illegalOp 0x07) ∧ decodeWord 0x100 = .error (.illegalOp 0x00) := by
  decide

/-! ### DECIN: V-IN3 under both touch variants -/

theorem test_decin_v_in3_variant_a : decodeInputBuffer .A vIn3 = .ok
    { ls_x := 18, ls_y := 52, rs_x := 171, rs_y := 205, dpad := .se
      square := false, cross := true, circle := false, triangle := true
      l1 := true, r1 := false, l2 := true, r2 := false, share := true, options := false, l3 := false, r3 := true
      ps := false, tpad := true, frame := 45, l2_analog := 64, r2_analog := 255, timestamp := 4660
      gyro_pitch := -1, gyro_yaw := -32768, gyro_roll := 32767, accel_x := 8192, accel_y := -100, accel_z := 1640
      bat_level := 11, bat_cable := true, bat_headphones := true, bat_mic := true, tp_count := 0, tp_counter := 1
      f0 := { active := true, id := 92, x := 3845, y := 3703 }
      f1 := { active := true, id := 58, x := 1279, y := 291 } } := by
  decide +kernel

theorem test_decin_v_in3_variant_b : (decodeInputBuffer .B vIn3).toOption.map
    (fun v => (v.dpad, v.tp_count, v.tp_counter, v.f0, v.f1)) = some (.se, 1, 92,
      { active := true, id := 5, x := 1919, y := 942 }, { active := false, id := 127, x := 564, y := 1377 }) := by
  decide +kernel

/-! ### LDOUT and ENCOUT: V-OUT2 -/

theorem test_ldout_v_out2 : (nextState? (exec (.ldout 0xAA 0x55 0x11 0x22 0x33 0x44 0x66) State.reset)).map State.OS = some
    { heavy := 0xAA, light := 0x55, led_r := 0x11, led_g := 0x22, led_b := 0x33, flash_on := 0x44, flash_off := 0x66 } := by
  decide

theorem test_encout_v_out2 : (nextState? (exec .encout (State.reset.setOS
    { heavy := 0xAA, light := 0x55, led_r := 0x11, led_g := 0x22, led_b := 0x33, flash_on := 0x44, flash_off := 0x66 }))).map
      (fun t => (List.range 33).map t.TXBUF.read) = some
    ([0x05, 0x07, 0x04, 0x00, 0x55, 0xAA, 0x11, 0x22, 0x33, 0x44, 0x66, 0, 0, 0, 0, 0, 0, 0, 0, 0, 0, 0, 0, 0, 0, 0, 0, 0,
      0, 0, 0, 0].map some ++ [none]) := by
  decide +kernel

/-! ### DECCAL: V-CAL3 and V-CAL2 -/

theorem test_deccal_v_cal3 : (nextState? (exec (.deccal 37) (rxState vCal3))).map State.CAL = some
    { gyro_pitch_bias := 32767, gyro_yaw_bias := -32768, gyro_roll_bias := 0
      gyro_pitch_plus := 32767, gyro_pitch_minus := -32768, gyro_yaw_plus := -32768, gyro_yaw_minus := 32767
      gyro_roll_plus := 1, gyro_roll_minus := 0, gyro_speed_plus := -32768, gyro_speed_minus := -32768
      accel_x_plus := -3, accel_x_minus := -4, accel_y_plus := -4, accel_y_minus := -3
      accel_z_plus := 32767, accel_z_minus := -32768, valid := true } := by
  decide +kernel

theorem test_deccal_v_cal2_is_stored_but_invalid : (nextState? (exec (.deccal 37) (rxState vCal2))).map
    (fun t => (t.CAL.accel_y_plus, t.CAL.accel_x_plus, t.CAL.valid, t.statuses)) = some (123, 8192, false, [.ok]) := by
  decide +kernel

/-! ### CALIB: V-ENG1 (nominal) and V-ENG3 (V-CAL1) -/

theorem test_calib_v_eng1 : calibrate
    { gyro_pitch := 1640, gyro_yaw := -1640, gyro_roll := 0, accel_x := 8192, accel_y := -8192, accel_z := 0 } .reset =
    { gyro_pitch := 0x4059000000000001, gyro_yaw := 0xC059000000000001, gyro_roll := 0
      accel_x := 0x3FF0000000000000, accel_y := 0xBFF0000000000000, accel_z := 0 } := by
  decide +kernel

theorem test_calib_v_eng3 : calibrate
    { gyro_pitch := 1000, gyro_yaw := -1000, gyro_roll := 3, accel_x := 8192, accel_y := 0, accel_z := -8300 }
      (calOf vCal1) =
    { gyro_pitch := 0x404E832F7E432F7E, gyro_yaw := 0xC04E744F9FB5EE69, gyro_roll := 0
      accel_x := 0x3FF0000000000000, accel_y := 0x3F2FFF8001FFF800, accel_z := 0xBFF0000000000000 } := by
  decide +kernel

/-! ### The step -/

/-- P3, step 6: an illegal `op` is answered IllegalOp. -/
theorem test_step_illegal_op : (nextState? (step (pendingState [.command (cmd 0x07 0)]))).map
    (fun t => (t.statuses, t.pending)) = some ([.illegalOp], []) := by
  decide

/-! ### Witnesses: encoding and the step -/

theorem witness_DecodeOfEncodeWord :
    (Instr.decin Config.rxCap).wellFormed = true ∧ (Instr.deccal 0).wellFormed = true ∧
      (Instr.ldout 1 2 3 4 5 6 7).wellFormed = true := by
  simp [Instr.wellFormed]

theorem witness_OpByteSelectsOperation :
    ((cmd 0x01 Config.rxCap).op = 0x01 ∧ (cmd 0x01 Config.rxCap).len ≤ Config.rxCap) ∧ (cmd 0x02 0).op = 0x02 ∧
      ((cmd 0x03 0).op = 0x03 ∧ (cmd 0x03 0).len ≤ Config.rxCap) ∧ (cmd 0x04 0).op = 0x04 ∧ (cmd 0x05 0).op = 0x05 ∧
      (cmd 0x00 0).op = 0x00 ∧ 0x06 ≤ (cmd 0x06 0).op.toNat ∧ 0x06 ≤ (cmd 0xFF 0).op.toNat :=
  ⟨⟨rfl, le_refl _⟩, rfl, ⟨rfl, Nat.zero_le _⟩, rfl, rfl, rfl, by decide, by decide⟩

theorem witness_IllegalOpChangesNothing :
    ((cmd 0x00 0).op = 0x00 ∧ (pendingState [.command (cmd 0x00 0)]).pending = [.command (cmd 0x00 0)]) ∧
      (0x06 ≤ (cmd 0x06 0).op.toNat ∧ (pendingState [.command (cmd 0x06 0)]).pending = [.command (cmd 0x06 0)]) :=
  ⟨⟨rfl, rfl⟩, by decide, rfl⟩

theorem witness_LenBeyondCapacityIsRefused :
    (cmd 0x01 (Config.rxCap + 1)).op = 0x01 ∧ (cmd 0x03 (Config.rxCap + 1)).op = 0x03 ∧
      Config.rxCap < (cmd 0x01 (Config.rxCap + 1)).len ∧ Config.rxCap < (cmd 0x03 (Config.rxCap + 1)).len ∧
      (pendingState [.command (cmd 0x01 (Config.rxCap + 1))]).pending = [.command (cmd 0x01 (Config.rxCap + 1))] :=
  ⟨rfl, rfl, Nat.lt_succ_self _, Nat.lt_succ_self _, rfl⟩

theorem witness_StepRunsDecodedCommand :
    ((pendingState [.command (cmd 0x04 0)]).pending = [.command (cmd 0x04 0)] ∧ decode (cmd 0x04 0) = .ok .calib) ∧
      decodeTableWord 8 0x05 = some (.ldout 0 0 0 0 0 0 0) :=
  ⟨⟨rfl, rfl⟩, rfl⟩

theorem witness_WaitingChangesNothing : State.reset.pending = [] := rfl

/-- A load that ends exactly at `RX_CAP`, one that passes it by one, and the first index past `TXBUF`. -/
theorem witness_HostLoadPlacesBytes :
    ((pendingState [.loadRx (Config.rxCap - 1) [0xAA]]).pending = [.loadRx (Config.rxCap - 1) [0xAA]] ∧
        Config.rxCap - 1 + [0xAA].length ≤ Config.rxCap) ∧
      ((pendingState [.loadRx Config.rxCap [0xAA]]).pending = [.loadRx Config.rxCap [0xAA]] ∧
        Config.rxCap < Config.rxCap + [0xAA].length) ∧ 32 ≤ 32 :=
  ⟨⟨rfl, by unfold Config.rxCap; simp⟩, ⟨rfl, by simp⟩, le_refl _⟩

theorem witness_ResetEventRestoresRegisters : (pendingState [.reset]).pending = [.reset] := rfl

/-! ### Witnesses: DECIN -/

/-- Each of the three answers: one byte too short, a wrong tag at the least length, an accepted report. -/
theorem witness_DecinDecodesInputReport :
    ((cmd 0x01 64).op = 0x01 ∧ (cmd 0x01 64).len ≤ Config.rxCap) ∧
      (Holds (rxState (vIn3.take 63)).RXBUF 63 (bytesOf (vIn3.take 63)) ∧ 63 < 64) ∧
      (Holds (rxState ((List.range 64).map fun _ => 0x11)).RXBUF 64 (fun _ => 0x11) ∧ (0x11 : Byte) ≠ 0x01) ∧
      (Holds (rxState vIn3).RXBUF 64 (bytesOf vIn3) ∧ bytesOf vIn3 0 = 0x01) :=
  ⟨⟨rfl, le_rxCap (le_refl _)⟩, ⟨holds_rxState (vIn3.take 63), by decide⟩, ⟨holds_rxState_fun _ 64, by decide⟩,
    accepted_vIn3.holds, by decide⟩

theorem witness_DecinStickAndTriggerFields : InputAccepted (rxState vIn3) 64 (bytesOf vIn3) := accepted_vIn3

theorem witness_DecinButtonFields : InputAccepted (rxState vIn3) 64 (bytesOf vIn3) := accepted_vIn3

theorem witness_DecinDpadField : InputAccepted (rxState vIn3) 64 (bytesOf vIn3) := accepted_vIn3

theorem witness_DecinTimestampAndSampleFields : InputAccepted (rxState vIn3) 64 (bytesOf vIn3) := accepted_vIn3

theorem witness_DecinBatteryFields : InputAccepted (rxState vIn3) 64 (bytesOf vIn3) := accepted_vIn3

theorem witness_DecinTouchFields : InputAccepted (rxState vIn3) 64 (bytesOf vIn3) := accepted_vIn3

theorem witness_DecinIsIdempotent : InputAccepted (rxState vIn3) 64 (bytesOf vIn3) := accepted_vIn3

theorem witness_NoInputBufferDecodesToReset :
    (0x08 ≤ (0x08 : Byte).toNat ∧ (0x0F : Byte).toNat ≤ 0x0F) ∧
      (∀ x, Holds (rxState ((List.range 64).map (noInputReport Config.touchVariant x))).RXBUF 64
        (noInputReport Config.touchVariant x)) ∧
      Holds (rxState ((List.range 64).map scenarioReport)).RXBUF 64 scenarioReport :=
  ⟨⟨by decide, by decide⟩, fun _ => holds_rxState_fun _ 64, holds_rxState_fun _ 64⟩

/-- V-IN4 and V-CAL6: bytes changed in ignored places, among them bit 7 of index 30. -/
theorem witness_IgnoredBytesHaveNoEffect :
    (∃ t, exec (.decin 64) (rxState vIn3) = .next t ∧
      ∀ m, m = ((rxState vIn3).RXBUF.write 12 0x00).write 30 0x7B →
        (∀ a, ¬ inputIgnored Config.touchVariant a → a ≠ 30 → m.read a = (rxState vIn3).RXBUF.read a) ∧
        (m.read 30).map (fun x => x.toNat % 128) = ((rxState vIn3).RXBUF.read 30).map (fun x => x.toNat % 128)) ∧
    (∃ t, exec (.deccal 37) (rxState vCal1) = .next t ∧
      ∀ a, a < 35 → ((rxState vCal1).RXBUF.write 35 0x00).read a = (rxState vCal1).RXBUF.read a) := by
  refine ⟨⟨_, exec_decin_accepted accepted_vIn3, ?_⟩, ⟨_, exec_deccal_accepted accepted_vCal1, ?_⟩⟩
  · rintro m rfl
    refine ⟨fun a hi h30 => ?_, by decide +kernel⟩
    have h12 : a ≠ 12 := fun h => hi (.inl h)
    rw [Memory.read_write, Memory.read_write]
    simp [h12, h30]
  · intro a ha
    have h35 : a ≠ 35 := by omega
    rw [Memory.read_write]
    simp [h35]

/-! ### Witnesses: errors -/

theorem witness_TooShortIsRaisedByLengthAlone :
    63 < 64 ∧ 36 < 37 ∧
      (∃ t, exec (.decin 63) State.reset = .next t ∧ t.statuses = State.reset.statuses ++ [.tooShort]) ∧
      (∃ t, exec (.deccal 36) State.reset = .next t ∧ t.statuses = State.reset.statuses ++ [.tooShort]) :=
  ⟨by decide, by decide, ⟨_, rfl, rfl⟩, ⟨_, rfl, rfl⟩⟩

theorem witness_UnexpectedReportIdIsRaisedByTag :
    (64 ≤ 64 ∧ (rxState [0x11]).RXBUF.read 0 = some 0x11 ∧ (0x11 : Byte) ≠ 0x01) ∧
      (37 ≤ 37 ∧ (rxState [0x05]).RXBUF.read 0 = some 0x05 ∧ (0x05 : Byte) ≠ 0x02) ∧
      (∃ t, exec (.decin 64) (rxState [0x11]) = .next t ∧
        t.statuses = (rxState [0x11]).statuses ++ [.unexpectedReportId]) ∧
      (∃ t, exec (.deccal 37) (rxState [0x05]) = .next t ∧
        t.statuses = (rxState [0x05]).statuses ++ [.unexpectedReportId]) :=
  ⟨⟨le_refl _, rfl, by decide⟩, ⟨le_refl _, rfl, by decide⟩, ⟨_, rfl, rfl⟩, ⟨_, rfl, rfl⟩⟩

theorem witness_ErrorChangesNothing :
    ∃ t, (pendingState [.command (cmd 0x07 0)]).pending = [.command (cmd 0x07 0)] ∧
      step (pendingState [.command (cmd 0x07 0)]) = .next t ∧
      t.statuses = (pendingState [.command (cmd 0x07 0)]).statuses ++ [.illegalOp] ∧ Status.illegalOp ≠ .ok :=
  ⟨_, rfl, rfl, rfl, by decide⟩

theorem witness_EveryCommandReturnsOneStatus :
    ((pendingState [.command (cmd 0x04 0)]).pending = [.command (cmd 0x04 0)] ∧
        HostAction.lawful State.reset.RXBUF (.command (cmd 0x04 0))) ∧
      HostAction.lawful (rxState vIn3).RXBUF (.command (cmd 0x01 64)) ∧
      ∃ t, step (pendingState [.command (cmd 0x04 0)]) = .next t :=
  ⟨⟨rfl, fun h => absurd h (by decide)⟩,
    fun _ => ⟨le_rxCap (le_refl _), holds_supplied accepted_vIn3.holds⟩, ⟨_, rfl⟩⟩

theorem witness_StatusesInfluenceNothing :
    ∃ t, (pendingState [.command (cmd 0x02 0)]).pending = [.command (cmd 0x02 0)] ∧
      step (pendingState [.command (cmd 0x02 0)]) = .next t :=
  ⟨_, rfl, rfl⟩

/-! ### Witnesses: LDOUT and ENCOUT -/

theorem witness_LdoutLoadsOutputState : (cmd 0x05 0).op = 0x05 := rfl

theorem witness_EncoutWritesOutputReport : (cmd 0x02 0).op = 0x02 := rfl

theorem witness_OutputRoundTrip : encodeOutput .reset = encodeOutput .reset := rfl

theorem witness_EncodePseudoInstructionRuns :
    (pendingState (expandLine (.encode 0xAA 0x55 0x11 0x22 0x33 0x44 0x66))).pending =
      expandLine (.encode 0xAA 0x55 0x11 0x22 0x33 0x44 0x66) ++ [] := rfl

theorem witness_TxbufReadNeedsEncout : 0 < 32 ∧ 31 < 32 ∧ State.reset.TXBUF.read 31 = none :=
  ⟨by decide, by decide, rfl⟩

/-! ### Witnesses: DECCAL -/

theorem witness_DeccalDecodesCalibrationRecord :
    ((cmd 0x03 37).op = 0x03 ∧ (cmd 0x03 37).len ≤ Config.rxCap) ∧
      (Holds (rxState (vCal1.take 36)).RXBUF 36 (bytesOf (vCal1.take 36)) ∧ 36 < 37) ∧
      (Holds (rxState ((List.range 37).map fun _ => 0x05)).RXBUF 37 (fun _ => 0x05) ∧ (0x05 : Byte) ≠ 0x02) ∧
      (Holds (rxState vCal1).RXBUF 37 (bytesOf vCal1) ∧ bytesOf vCal1 0 = 0x02) :=
  ⟨⟨rfl, le_rxCap (by decide)⟩, ⟨holds_rxState (vCal1.take 36), by decide⟩, ⟨holds_rxState_fun _ 37, by decide⟩,
    accepted_vCal1.holds, by decide⟩

theorem witness_DeccalConstantFields : RecordAccepted (rxState vCal1) 37 (bytesOf vCal1) := accepted_vCal1

theorem witness_DeccalValidityMeansPairsDiffer : RecordAccepted (rxState vCal1) 37 (bytesOf vCal1) := accepted_vCal1

/-! ### Witnesses: CALIB -/

theorem witness_CalibReplacesCi : (cmd 0x04 0).op = 0x04 := rfl

theorem witness_CalibNominalConversion : State.reset.CAL.valid = false := rfl

theorem witness_CalibGyroFormula : (calState (calOf vCal1)).CAL.valid = true := by decide +kernel

theorem witness_CalibAccelFormula : (calState (calOf vCal3)).CAL.valid = true := by decide +kernel

/-- V-ENG9: pairs that are equal, with the flag at 1; the reset constants with the flag at 1 have all six equal. -/
theorem witness_CalibGuardReturnsSample :
    let s := calState { CalibrationData.reset with valid := true }
    s.CAL.valid = true ∧ s.CAL.gyro_pitch_plus = s.CAL.gyro_pitch_minus ∧ s.CAL.gyro_yaw_plus = s.CAL.gyro_yaw_minus ∧
      s.CAL.gyro_roll_plus = s.CAL.gyro_roll_minus ∧ s.CAL.accel_x_plus = s.CAL.accel_x_minus ∧
      s.CAL.accel_y_plus = s.CAL.accel_y_minus ∧ s.CAL.accel_z_plus = s.CAL.accel_z_minus := by
  decide

/-- V-CAL1: the flag is 1 and all six pairs differ. -/
theorem pairsDiffer_vCal1 :
    let s := calState (calOf vCal1)
    s.CAL.valid = true ∧ s.CAL.gyro_pitch_plus ≠ s.CAL.gyro_pitch_minus ∧ s.CAL.gyro_yaw_plus ≠ s.CAL.gyro_yaw_minus ∧
      s.CAL.gyro_roll_plus ≠ s.CAL.gyro_roll_minus ∧ s.CAL.accel_x_plus ≠ s.CAL.accel_x_minus ∧
      s.CAL.accel_y_plus ≠ s.CAL.accel_y_minus ∧ s.CAL.accel_z_plus ≠ s.CAL.accel_z_minus := by
  decide +kernel

theorem witness_CalibOutputsRoundedOnce :
    ((calState (calOf vCal1)).CAL.valid = true ∧
        (calState (calOf vCal1)).CAL.gyro_pitch_plus ≠ (calState (calOf vCal1)).CAL.gyro_pitch_minus) ∧
      State.reset.CAL.valid = false :=
  ⟨⟨pairsDiffer_vCal1.1, pairsDiffer_vCal1.2.1⟩, rfl⟩

theorem witness_CalibOutputsCleanAndBounded :
    (calState (calOf vCal3)).CAL.valid = true ∧ State.reset.CAL.valid = false := by
  decide +kernel

/-- V-CAL6: V-CAL1 with the speed references 540 and -540. -/
theorem witness_CalibZeroMultiplierGivesPlusZero :
    let s := calState { calOf vCal1 with gyro_speed_minus := -540 }
    s.CAL.valid = true ∧ s.CAL.gyro_speed_plus.toInt + s.CAL.gyro_speed_minus.toInt = 0 ∧
      s.CAL.gyro_pitch_plus ≠ s.CAL.gyro_pitch_minus ∧ s.CAL.gyro_yaw_plus ≠ s.CAL.gyro_yaw_minus ∧
      s.CAL.gyro_roll_plus ≠ s.CAL.gyro_roll_minus := by
  decide +kernel

theorem witness_CalibSignAndPairOrder :
    let s := calState (calOf vCal1)
    s.CAL.valid = true ∧ s.CAL.gyro_pitch_plus ≠ s.CAL.gyro_pitch_minus ∧ s.CAL.gyro_yaw_plus ≠ s.CAL.gyro_yaw_minus ∧
      s.CAL.gyro_roll_plus ≠ s.CAL.gyro_roll_minus ∧ s.CAL.accel_x_plus ≠ s.CAL.accel_x_minus ∧
      s.CAL.accel_y_plus ≠ s.CAL.accel_y_minus ∧ s.CAL.accel_z_plus ≠ s.CAL.accel_z_minus :=
  pairsDiffer_vCal1

/-- Two states that differ in a sample of another axis. -/
theorem witness_CalibAxesAreIndependent :
    let s := calState (calOf vCal1)
    let s' := s.setIS { s.IS with accel_z := 5 }
    s.CAL.valid = s'.CAL.valid ∧ s.CAL.gyro_speed_plus = s'.CAL.gyro_speed_plus ∧
      s.CAL.gyro_speed_minus = s'.CAL.gyro_speed_minus ∧ s.IS.gyro_pitch = s'.IS.gyro_pitch ∧
      s.CAL.gyro_pitch_bias = s'.CAL.gyro_pitch_bias ∧ s.CAL.gyro_pitch_plus = s'.CAL.gyro_pitch_plus ∧
      s.CAL.gyro_pitch_minus = s'.CAL.gyro_pitch_minus ∧ s.IS.accel_x = s'.IS.accel_x ∧
      s.CAL.accel_x_plus = s'.CAL.accel_x_plus ∧ s.IS.accel_z ≠ s'.IS.accel_z := by
  decide +kernel

theorem witness_IntegerConversionIsExact :
    (4294901760 : ℤ).natAbs ≤ 4294901760 ∧ (-4294901760 : ℤ).natAbs ≤ 4294901760 := by
  decide

/-! ### Witnesses: the whole machine -/

/-- Every operation answers a next state somewhere; DECIN also with an error. -/
theorem witness_OperationsWriteOnlyTheirOutputs :
    (∃ t, exec (.decin 64) (rxState vIn3) = .next t) ∧ (∃ t, exec .encout State.reset = .next t) ∧
      (∃ t, exec (.deccal 37) (rxState vCal1) = .next t) ∧ (∃ t, exec .calib State.reset = .next t) ∧
      (∃ t, exec (.ldout 1 2 3 4 5 6 7) State.reset = .next t) ∧ (∃ t, exec (.decin 0) State.reset = .next t) :=
  ⟨⟨_, exec_decin_accepted accepted_vIn3⟩, ⟨_, rfl⟩, ⟨_, exec_deccal_accepted accepted_vCal1⟩, ⟨_, rfl⟩, ⟨_, rfl⟩, ⟨_, rfl⟩⟩

/-- A state with other registers and the same bytes below `len`. -/
theorem witness_OperationsReadOnlyTheirInputs :
    ((∀ a, a < 64 → ((rxState vIn3).setOS ⟨1, 2, 3, 4, 5, 6, 7⟩).RXBUF.read a = (rxState vIn3).RXBUF.read a) ∧
        ∃ t, exec (.decin 64) (rxState vIn3) = .next t) ∧
      ((∀ a, a < 37 → ((rxState vCal1).setOS ⟨1, 2, 3, 4, 5, 6, 7⟩).RXBUF.read a = (rxState vCal1).RXBUF.read a) ∧
        ∃ t, exec (.deccal 37) (rxState vCal1) = .next t) ∧
      (rxState vIn3).OS = State.reset.OS ∧ rawOf (rxState vIn3).IS = rawOf State.reset.IS ∧
      (rxState vIn3).CAL = State.reset.CAL :=
  ⟨⟨fun _ _ => rfl, _, exec_decin_accepted accepted_vIn3⟩, ⟨fun _ _ => rfl, _, exec_deccal_accepted accepted_vCal1⟩,
    rfl, rfl, rfl⟩

theorem witness_SuppliedOperationsComplete :
    (∀ len, Instr.decin 64 = .decin len ∨ Instr.decin 64 = .deccal len → Supplied (rxState vIn3).RXBUF len) ∧
      (∀ len, Instr.calib = .decin len ∨ Instr.calib = .deccal len → Supplied State.reset.RXBUF len) := by
  refine ⟨fun len h => ?_, fun len h => ?_⟩
  · rcases h with h | h
    · cases h; exact holds_supplied accepted_vIn3.holds
    · cases h
  · rcases h with h | h <;> cases h

/-- Right after reset no byte has been supplied. -/
theorem witness_OperationsStopOnlyOnMissingBytes :
    exec (.decin 64) State.reset = .fault (.rxByteNotSupplied 0) := rfl

theorem witness_RegistersChangeOnlyThroughTheirCommand :
    ∃ t, step (pendingState [.command { op := 0x05, len := 0, arg := #v[1, 2, 3, 4, 5, 6, 7] }]) = .next t ∧
      t.OS ≠ State.reset.OS :=
  ⟨_, rfl, by decide⟩

theorem witness_LaterCommandsSeeEarlierWrites :
    InputAccepted (rxState vIn3) 64 (bytesOf vIn3) ∧ RecordAccepted (rxState vCal1) 37 (bytesOf vCal1) :=
  ⟨accepted_vIn3, accepted_vCal1⟩

theorem witness_LawfulHostNeverStopsBlock :
    (∀ x rest, State.reset.pending = x :: rest → x.lawful State.reset.RXBUF) ∧
      (∀ x rest, ((rxState vIn3).setPending [.command (cmd 0x01 64)]).pending = x :: rest →
        x.lawful ((rxState vIn3).setPending [.command (cmd 0x01 64)]).RXBUF) := by
  refine ⟨fun x rest h => (List.cons_ne_nil x rest h.symm).elim, fun x rest h => ?_⟩
  cases h
  exact fun _ => ⟨le_rxCap (le_refl _), holds_supplied accepted_vIn3.holds⟩

/-- The invariant holds after power-on, and the host's next command there runs. -/
theorem witness_StepKeepsInvariant :
    (pendingState [.command (cmd 0x02 0)]).Inv ∧ ∃ t, step (pendingState [.command (cmd 0x02 0)]) = .next t :=
  ⟨⟨Memory.wf_empty, fun _ h => (Bool.false_ne_true h).elim, .inl rfl, rfl,
    ⟨clean_zero, clean_zero, clean_zero, clean_zero, clean_zero, clean_zero⟩⟩, ⟨_, rfl⟩⟩

end Sys2Proof.Tests
end

section
/-! PROOFS of the statements about the state and its reset values (spec/10_state.md): R37, R40, R48, R49. -/

namespace Sys2Proof.Machine

/-! ### The host's read of `TXBUF` -/

/-- R40: at an index that exists, a read where `TXBUF` holds no value is refused. -/
theorem hostReadTx_of_read_none {a : Nat} {s : State} (ha : a < 32) (h : s.TXBUF.read a = none) :
    hostReadTx a s = .refused .txbufHoldsNoValue := by
  simp [hostReadTx, Config.OUT_LEN, ha, h]

/-- R47: at an index that exists, a read where `TXBUF` holds a value gives that value. -/
theorem hostReadTx_of_read_some {a : Nat} {b : Byte} {s : State} (ha : a < 32) (h : s.TXBUF.read a = some b) :
    hostReadTx a s = .next b := by
  simp [hostReadTx, Config.OUT_LEN, ha, h]

/-- Settles O31: reset leaves `TXBUF` without a value anywhere, ENCOUT gives each of the 32 indices one. -/
theorem txbufReadNeedsEncout : Obligations.TxbufReadNeedsEncout := by
  refine ⟨fun a ha => hostReadTx_of_read_none ha (Memory.read_empty a),
    fun s a ha hnone => hostReadTx_of_read_none ha hnone,
    fun s => ⟨_, exec_encout s, fun a ha => hostReadTx_of_read_some ha ?_⟩⟩
  rw [respond_TXBUF, State.setTXBUF_TXBUF]
  exact read_encoded s.TXBUF s.OS a ha

/-! ### Which action changes which register -/

/-- R71: a command that decodes carries the `op` of its operation. -/
theorem decode_ok_encode_op {c : Command} {i : Instr} (h : decode c = .ok i) : c.op = (encode i).op := by
  have hop : ∀ n : Byte, c.op.toNat = n.toNat → c.op = n := fun n hn => BitVec.eq_of_toNat_eq hn
  unfold decode withLen at h
  split at h
  case h_1 h1 => split at h <;> cases h; exact hop 0x01 h1
  case h_2 h2 => cases h; exact hop 0x02 h2
  case h_3 h3 => split at h <;> cases h; exact hop 0x03 h3
  case h_4 h4 => cases h; exact hop 0x04 h4
  case h_5 h5 => cases h; exact hop 0x05 h5
  case h_6 => cases h

/-- R46, the write columns: an operation leaves each register as it was, unless it is the one that writes it. -/
theorem Effect.keeps_or_writes {s t : State} {i : Instr} (h : Effect s i t) :
    (t.IS = s.IS ∨ (encode i).op = 0x01) ∧ (t.CAL = s.CAL ∨ (encode i).op = 0x03) ∧
      (t.CI = s.CI ∨ (encode i).op = 0x04) ∧ (t.TXBUF = s.TXBUF ∨ (encode i).op = 0x02) ∧
      (t.OS = s.OS ∨ (encode i).op = 0x05) := by
  cases h <;> simp [encode]

/-- R33: an operation leaves `CAL` as it was or makes it the record of some bytes. -/
theorem Effect.CAL_kept_or_record {s t : State} {i : Instr} (h : Effect s i t) :
    t.CAL = s.CAL ∨ ∃ b, t.CAL = calibrationRecord b := by
  cases h with
  | deccalOk len v hv =>
    obtain ⟨-, -, -, hrec⟩ := decodeReport_ok hv
    exact .inr ⟨_, hrec⟩
  | decinOk | decinError | encout | deccalError | calib | ldout => exact .inl (by simp)

/-- R48: a step that answers changed no register, or took a reset, or ran the operation of the oldest command. -/
theorem step_kept_or_reset_or_ran {s t : State} (h : step s = .next t) :
    (t.IS = s.IS ∧ t.CAL = s.CAL ∧ t.CI = s.CI ∧ t.TXBUF = s.TXBUF ∧ t.OS = s.OS) ∨
      (∃ rest, s.pending = .reset :: rest ∧ t = resetBlock (s.setPending rest)) ∨
      (∃ c rest i, s.pending = .command c :: rest ∧ c.op = (encode i).op ∧ Effect (s.setPending rest) i t) := by
  obtain ⟨-, rfl⟩ | ⟨x, rest, hp, ⟨a, bs, -, -, rfl⟩ | ⟨rfl, ht⟩ | ⟨c, i, rfl, hd, he⟩ | ⟨c, op, -, -, rfl⟩⟩ :=
    step_cases h
  · exact .inl ⟨rfl, rfl, rfl, rfl, rfl⟩
  · exact .inl (by simp)
  · exact .inr (.inl ⟨rest, hp, ht⟩)
  · exact .inr (.inr ⟨c, rest, i, hp, decode_ok_encode_op hd, he⟩)
  · exact .inl (by simp)

/-- R33, R261: a step leaves `CAL` as it was, resets it, or makes it the record of some bytes. -/
theorem step_CAL_kept_or_reset_or_record {s t : State} (h : step s = .next t) :
    t.CAL = s.CAL ∨ t.CAL = .reset ∨ ∃ b, t.CAL = calibrationRecord b := by
  obtain ⟨-, hcal, -⟩ | ⟨rest, -, rfl⟩ | ⟨c, rest, i, -, -, he⟩ := step_kept_or_reset_or_ran h
  · exact .inl hcal
  · exact .inr (.inl (resetBlock_CAL _))
  · exact he.CAL_kept_or_record.imp_right .inr

/-- R176: the flag of a record is the rule of its own pairs. -/
theorem calibrationRecord_valid (b : Nat → Byte) :
    (calibrationRecord b).valid = pairsValid (calibrationRecord b) := rfl

/-- R48, R177: a step keeps "`CAL.valid` implies that all six pairs differ". -/
theorem step_keeps_valid_imp_pairsValid {s t : State} (h : step s = .next t)
    (hs : s.CAL.valid = true → pairsValid s.CAL = true) (hv : t.CAL.valid = true) : pairsValid t.CAL = true := by
  obtain hcal | hcal | ⟨b, hcal⟩ := step_CAL_kept_or_reset_or_record h <;> rw [hcal] at hv ⊢
  · exact hs hv
  · exact absurd hv Bool.false_ne_true
  · rwa [← calibrationRecord_valid]

/-- R27: the D-pad number is at most 8. -/
theorem DPad.code_le (d : DPad) : d.code ≤ 8 := by cases d <;> decide

/-- R48: the host's next action is a reset, or a command with this `op`. -/
def NextIsResetOrOp (s : State) (op : Byte) : Prop :=
  ∃ rest, s.pending = .reset :: rest ∨ ∃ c, s.pending = .command c :: rest ∧ c.op = op

/-- R48: a step leaves each register as it was, unless the host's next action is a reset or the register's command. -/
theorem step_keeps_or_nextIsResetOrOp {s t : State} (h : step s = .next t) :
    (t.IS = s.IS ∨ NextIsResetOrOp s 0x01) ∧ (t.CAL = s.CAL ∨ NextIsResetOrOp s 0x03) ∧
      (t.CI = s.CI ∨ NextIsResetOrOp s 0x04) ∧ (t.TXBUF = s.TXBUF ∨ NextIsResetOrOp s 0x02) ∧
      (t.OS = s.OS ∨ NextIsResetOrOp s 0x05) := by
  obtain ⟨hIS, hCAL, hCI, hTX, hOS⟩ | ⟨rest, hp, -⟩ | ⟨c, rest, i, hp, hop, he⟩ := step_kept_or_reset_or_ran h
  · exact ⟨.inl hIS, .inl hCAL, .inl hCI, .inl hTX, .inl hOS⟩
  · have hreset : ∀ op, NextIsResetOrOp s op := fun _ => ⟨rest, .inl hp⟩
    exact ⟨.inr (hreset _), .inr (hreset _), .inr (hreset _), .inr (hreset _), .inr (hreset _)⟩
  · have hran : ∀ {op}, (encode i).op = op → NextIsResetOrOp s op := fun hi =>
      ⟨rest, .inr ⟨c, hp, hop.trans hi⟩⟩
    obtain ⟨hIS, hCAL, hCI, hTX, hOS⟩ := he.keeps_or_writes
    exact ⟨hIS.imp_right hran, hCAL.imp_right hran, hCI.imp_right hran, hTX.imp_right hran, hOS.imp_right hran⟩

/-- Settles O51: a step that changed a register took a reset or the register's own command; `CAL.valid` goes on
implying that the pairs differ because every new `CAL` is the reset one or a record. -/
theorem registersChangeOnlyThroughTheirCommand : Obligations.RegistersChangeOnlyThroughTheirCommand := by
  intro s t h
  obtain ⟨hIS, hCAL, hCI, hTX, hOS⟩ := step_keeps_or_nextIsResetOrOp h
  exact ⟨hIS.resolve_left, hCAL.resolve_left, hCI.resolve_left, hTX.resolve_left, hOS.resolve_left,
    step_keeps_valid_imp_pairsValid h, t.IS.dpad.code_le⟩

/-! ### The reset values -/

/-- Settles O10: every field of `State.reset` is written out in the model. -/
theorem powerOnHoldsResetValues : Obligations.PowerOnHoldsResetValues where
  sticks := ⟨rfl, rfl, rfl, rfl⟩
  dpad := rfl
  buttons := ⟨rfl, rfl, rfl, rfl, rfl, rfl, rfl, rfl, rfl, rfl, rfl, rfl, rfl, rfl⟩
  triggers := ⟨rfl, rfl⟩
  counters := ⟨rfl, rfl⟩
  samples := rfl
  battery := ⟨rfl, rfl, rfl, rfl⟩
  touch := ⟨rfl, rfl, rfl, rfl⟩
  cal := rfl
  os := rfl
  ci := rfl
  txbuf := Memory.read_empty

/-- R193: the nominal conversion of a gyro sample 0 is +0.0. -/
theorem gyroNominal_zero : gyroNominal 0 = 0 := by
  change fdiv (i2f 0) _ = 0
  rw [i2f_zero]
  exact fdiv_zero _ (by decide) (by rw [gyroDiv_value]; norm_num) (by decide)

/-- R193: the nominal conversion of an accelerometer sample 0 is +0.0. -/
theorem accelNominal_zero : accelNominal 0 = 0 := by
  change fdiv (i2f 0) _ = 0
  rw [i2f_zero]
  exact fdiv_zero _ (by decide) (by rw [accelDiv_value]; norm_num) (by decide)

/-- R192: with the flag 0 all six axes take the nominal conversion. -/
theorem calibrate_of_not_valid {c : CalibrationData} (raw : IMURaw) (h : c.valid = false) :
    calibrate raw c =
      ⟨gyroNominal raw.gyro_pitch, gyroNominal raw.gyro_yaw, gyroNominal raw.gyro_roll,
        accelNominal raw.accel_x, accelNominal raw.accel_y, accelNominal raw.accel_z⟩ := by
  simp [calibrate, h]

/-- Settles O11: the reset `CAL` is not valid, so each reset sample, 0, is converted nominally to +0.0. -/
theorem resetCiIsCalibrateOfReset : Obligations.ResetCiIsCalibrateOfReset := by
  refine ⟨rfl, ?_⟩
  rw [calibrate_of_not_valid (rawOf State.reset.IS) (c := State.reset.CAL) rfl]
  change CalibratedIMU.mk (gyroNominal 0) (gyroNominal 0) (gyroNominal 0)
    (accelNominal 0) (accelNominal 0) (accelNominal 0) = State.reset.CI
  rw [gyroNominal_zero, accelNominal_zero]
  rfl

end Sys2Proof.Machine
end

section
/-! PROOFS of the statement about the two views of a report (spec/20_memory.md): R68. -/

namespace Sys2Proof.Machine

/-- R41, R51: bytes written from index 0 up are held there, whatever the space held before. -/
theorem holds_writeBytes (m : Memory) (buf : List Byte) :
    Holds (m.writeBytes 0 buf) buf.length fun a => buf.getD a 0 := by
  intro a ha
  have := Memory.read_writeBytes_inside m 0 buf a ha
  rwa [Nat.zero_add, ← List.getD_eq_getElem buf 0 ha] at this

/-- R68: an answer of the pure function of a byte list, as an answer of the decoder of `RXBUF`. A byte list lacks no
byte, so there is no third case. -/
def Decoded.ofExcept {α : Type} : Except Status α → Decoded α
  | .ok v => .ok v
  | .error st => .error st

section Views
variable {α : Type} {minLen : Nat} {tag : Byte} {indices : List Nat} {needs : Nat → Bool}
  {fields : (Nat → Byte) → α}

/-- R57, R68: on a byte list written from index 0 up, the decoder of `RXBUF` answers as the function of the list, when
the minimum length covers every index read and the fields depend on no other byte. -/
theorem decodeReport_writeBytes (hpos : 0 < minLen) (hlt : ∀ a ∈ indices, needs a = true → a < minLen)
    (hfields : ∀ b b', (∀ a ∈ indices, needs a = true → b a = b' a) → fields b = fields b')
    (rx : Memory) (buf : List Byte) :
    decodeReport minLen tag indices needs fields (rx.writeBytes 0 buf) buf.length =
      .ofExcept (decodeBuffer minLen tag fields buf) := by
  have hread := holds_writeBytes rx buf
  rcases Nat.lt_or_ge buf.length minLen with hshort | hlong
  · rw [decodeReport_short hshort, decodeBuffer, if_pos hshort]; rfl
  have h0 := hread 0 (hpos.trans_le hlong)
  rw [decodeBuffer, if_neg (Nat.not_lt.mpr hlong)]
  by_cases htag : buf.getD 0 0 = tag
  · have hneeded : ∀ a ∈ indices, needs a = true → (rx.writeBytes 0 buf).read a = some (buf.getD a 0) :=
      fun a ha hn => hread a ((hlt a ha hn).trans_le hlong)
    rw [decodeReport_good hlong (htag ▸ h0) fun a ha hn => by rw [hneeded a ha hn]; rfl,
      hfields _ _ fun a ha hn => Memory.bytes_of_read (hneeded a ha hn), if_neg (not_not.mpr htag)]
    rfl
  · rw [decodeReport_badTag hlong h0 htag, if_pos htag]; rfl

end Views

/-- R68, R111: `decode_input` of a byte list placed in `RXBUF`. -/
theorem decodeInput_writeBytes (tv : TouchVariant) (rx : Memory) (buf : List Byte) :
    decodeInput tv (rx.writeBytes 0 buf) buf.length = .ofExcept (decodeInputBuffer tv buf) :=
  decodeReport_writeBytes (by decide)
    (fun a ha hn => inputIndicesRead_lt tv a (mem_inputIndicesRead.mpr ⟨ha, hn⟩))
    (fun _ _ h => inputRecord_congr tv fun a ha => (mem_inputIndicesRead.mp ha).elim (h a)) rx buf

/-- R68, R171: `decode_cal` of a byte list placed in `RXBUF`. -/
theorem decodeCal_writeBytes (rx : Memory) (buf : List Byte) :
    decodeCal (rx.writeBytes 0 buf) buf.length = .ofExcept (decodeCalBuffer buf) :=
  decodeReport_writeBytes (by decide) (fun a ha _ => calibrationIndices_lt a ha)
    (fun _ _ h => calibrationRecord_congr fun a ha => h a ha rfl) rx buf

/-- Settles O46: each decoder of `RXBUF` answers as its pure function of the byte list, and the operation commits that
answer. -/
theorem decodersAgreeWithByteLists : Obligations.DecodersAgreeWithByteLists := by
  intro s buf
  constructor
  · rw [exec_decin, decodeInput_writeBytes]
    cases decodeInputBuffer Config.touchVariant buf <;> rfl
  · rw [exec_deccal, decodeCal_writeBytes]
    cases decodeCalBuffer buf <;> rfl

end Sys2Proof.Machine
end

section
/-! PROOFS of the statements about the encoding of commands and reports (spec/30_encoding.md): R71, R73, R80, R86, R90,
R95. -/

namespace Sys2Proof.Machine

/-! ### The op byte -/

section OpByte
variable {c : Command}

theorem decode_decin (hop : c.op = 0x01) (hlen : c.len ≤ Config.rxCap) : decode c = .ok (.decin c.len) := by
  rw [decode, hop]
  exact withLen_ok hlen

theorem decode_encout (hop : c.op = 0x02) : decode c = .ok .encout := by
  rw [decode, hop]; rfl

theorem decode_deccal (hop : c.op = 0x03) (hlen : c.len ≤ Config.rxCap) : decode c = .ok (.deccal c.len) := by
  rw [decode, hop]
  exact withLen_ok hlen

theorem decode_calib (hop : c.op = 0x04) : decode c = .ok .calib := by
  rw [decode, hop]; rfl

theorem decode_ldout (hop : c.op = 0x05) :
    decode c = .ok (.ldout c.arg[0] c.arg[1] c.arg[2] c.arg[3] c.arg[4] c.arg[5] c.arg[6]) := by
  rw [decode, hop]; rfl

/-- R73: an `op` outside 1 to 5 selects no operation, whatever `len` and `arg` are. -/
theorem decode_illegalOp (hop : c.op = 0x00 ∨ 0x06 ≤ c.op.toNat) : decode c = .error (.illegalOp c.op) := by
  have hnat : c.op.toNat = 0 ∨ 6 ≤ c.op.toNat := hop.imp_left (congrArg BitVec.toNat)
  unfold decode
  split
  case h_6 => rfl
  all_goals omega

end OpByte

/-- Settles O2: one decoder equation per row of the operation table, and one for the values outside it. -/
theorem opByteSelectsOperation : Obligations.OpByteSelectsOperation := fun _ =>
  ⟨decode_decin, decode_encout, decode_deccal, decode_calib, decode_ldout, decode_illegalOp⟩

/-! ### A step that takes a command -/

section StepCommand
variable {s : State} {c : Command} {rest : List HostAction}

/-- R60: a command that decodes runs its operation at the state without that command. -/
theorem step_command_of_decode_ok {i : Instr} (hp : s.pending = .command c :: rest) (hd : decode c = .ok i) :
    step s = exec i (s.setPending rest) := by
  rw [step_cons hp, runAction, runCommand, hd]

/-- R73: a command that selects no operation is answered IllegalOp at the state without that command. -/
theorem step_command_of_decode_illegalOp {op : Byte} (hp : s.pending = .command c :: rest)
    (hd : decode c = .error (.illegalOp op)) : step s = .next (respond .illegalOp (s.setPending rest)) := by
  rw [step_cons hp, runAction, runCommand, hd]

end StepCommand

/-- Settles O4: the decoder finds the illegal `op`, and returning IllegalOp changes nothing but the statuses. -/
theorem illegalOpChangesNothing : Obligations.IllegalOpChangesNothing := fun _ _ _ hop hp =>
  step_command_of_decode_illegalOp hp (decode_illegalOp hop)

/-! ### The output report -/

/-- R86: the report is zero from byte 11 on. -/
theorem encodeOutput_getElem_eq_zero (o : OutputState) {a : Nat} (hlow : 11 ≤ a) (hhigh : a < 32) :
    (encodeOutput o)[a] = 0 := by
  interval_cases a <;> rfl

/-- R153: ENCOUT changes `TXBUF` and returns OK. The space it writes is a variable with an equation, so that comparing
states never runs the 32 writes. -/
theorem exec_encout_next {s : State} {m : Memory} (hm : m = s.TXBUF.writeBytes 0 (encodeOutput s.OS).toList) :
    exec .encout s = .next { s with TXBUF := m, statuses := s.statuses ++ [.ok] } := by
  rw [exec_encout, ← hm]; rfl

/-- Settles O28: ENCOUT writes the report of `OS` over the first 32 bytes of `TXBUF`. -/
theorem encoutWritesOutputReport : Obligations.EncoutWritesOutputReport := by
  refine ⟨fun _ => decode_encout, fun s => ⟨_, exec_encout_next rfl, ?_⟩⟩
  have hread := read_encoded s.TXBUF s.OS
  refine ⟨hread 0 (by decide), hread 1 (by decide), hread 2 (by decide), hread 3 (by decide), hread 4 (by decide),
    hread 5 (by decide), hread 6 (by decide), hread 7 (by decide), hread 8 (by decide), hread 9 (by decide),
    hread 10 (by decide), fun a hlow hhigh => ?_, read_encoded_outside s.TXBUF s.OS⟩
  rw [hread a hhigh, encodeOutput_getElem_eq_zero s.OS hlow hhigh]

/-- Settles O30: the first step runs LDOUT, the second ENCOUT on the `OS` it loaded; the field lemmas of the
state give what both leave unchanged. -/
theorem encodePseudoInstructionRuns : Obligations.EncodePseudoInstructionRuns := by
  intro s rest heavy light r g b on' off hp
  have hldout := step_command_of_decode_ok hp (Laws.Encoding.ldout heavy light r g b on' off rfl)
  rw [exec_ldout] at hldout
  refine ⟨_, _, hldout,
    (step_command_of_decode_ok (rest := rest) rfl (Laws.Encoding.encout rfl)).trans (exec_encout _), ?_⟩
  simpa using fun a ha => read_encoded _ _ a ha

/-! ### The D-pad -/

/-- R79: the value of `byte[3:0]`. -/
theorem lowNibble_toNat (x : Byte) : (lowNibble x).toNat = x.toNat % 16 := by
  simp [lowNibble]

/-- R80: the number of a raw nibble's direction, for each of the sixteen nibbles. -/
theorem dpadOf_code (n : BitVec 4) : (dpadOf n).code = if n.toNat ≤ 7 then n.toNat else 8 := by
  revert n
  decide

/-- Settles O15: DECIN stores the direction of the low nibble of byte 5. -/
theorem decinDpadField : Obligations.DecinDpadField := by
  intro s len b hacc
  refine ⟨_, exec_decin_accepted hacc, ?_⟩
  rw [← lowNibble_toNat]
  exact ⟨rfl, dpadOf_code _⟩

/-! ### Ignored bytes and bits -/

/-- R57, R90: the report decoder answers alike on two spaces that agree at byte 0, hold a value at the same needed
indices and give the same fields. -/
theorem decodeReport_congr {α : Type} {minLen : Nat} {tag : Byte} {indices : List Nat} {needs : Nat → Bool}
    {fields : (Nat → Byte) → α} {rx rx' : Memory} (len : Nat) (h0 : rx.read 0 = rx'.read 0)
    (hsome : ∀ a ∈ indices, needs a = true → (rx.read a).isSome = (rx'.read a).isSome)
    (hfields : fields rx.bytes = fields rx'.bytes) :
    decodeReport minLen tag indices needs fields rx len = decodeReport minLen tag indices needs fields rx' len := by
  have hfind : indices.find? (fun a => (rx.read a).isNone && needs a) =
      indices.find? (fun a => (rx'.read a).isNone && needs a) := by
    refine List.find?_congr fun a ha => ?_
    cases hn : needs a
    · simp
    · simp [← Option.not_isSome, hsome a ha hn]
  unfold decodeReport
  rw [h0, hfind, hfields]

theorem and_0x7F_toNat (x : Byte) : (x &&& 0x7F).toNat = x.toNat % 128 :=
  Nat.and_two_pow_sub_one_eq_mod x.toNat 7

/-- The bytes of an input report with the ignored bit 7 of index 30 cleared (R121). -/
def clearIgnoredBit (b : Nat → Byte) (a : Nat) : Byte := if a = 30 then b a &&& 0x7F else b a

/-- R121: the battery fields use bits 0 to 6 of index 30, and no other field uses that index. -/
theorem inputRecord_clearIgnoredBit (tv : TouchVariant) (b : Nat → Byte) :
    inputRecord tv Config.BASE (clearIgnoredBit b) = inputRecord tv Config.BASE b := by
  have hlevel : ∀ x : Byte, lowNibble (x &&& 0x7F) = lowNibble x := by decide
  have hbits : ∀ x : Byte, ∀ i ∈ [4, 5, 6], bitOf (x &&& 0x7F) i = bitOf x i := by decide
  cases tv <;>
  · unfold inputRecord
    congr 1
    · exact hlevel _
    · exact hbits _ 4 (by decide)
    · exact hbits _ 5 (by decide)
    · exact hbits _ 6 (by decide)

/-- R90, R124: no index that DECIN reads is an ignored one. -/
theorem not_inputIgnored_of_mem (tv : TouchVariant) : ∀ a ∈ inputIndicesRead tv, ¬ inputIgnored tv a := by
  unfold inputIgnored
  cases tv <;> decide

/-- R90: DECIN's decoder answers alike on two spaces that differ only where the format ignores them. -/
theorem decodeInput_congr {tv : TouchVariant} {rx rx' : Memory} (len : Nat)
    (hread : ∀ a, ¬ inputIgnored tv a → a ≠ 30 → rx.read a = rx'.read a)
    (h30 : (rx.read 30).map (fun x => x.toNat % 128) = (rx'.read 30).map (fun x => x.toNat % 128)) :
    decodeInput tv rx len = decodeInput tv rx' len := by
  have hlow : (rx.bytes 30).toNat % 128 = (rx'.bytes 30).toNat % 128 := by
    have hgetD := congrArg (·.getD ((0 : Byte).toNat % 128)) h30
    rwa [Option.getD_map (fun x : Byte => x.toNat % 128), Option.getD_map (fun x : Byte => x.toNat % 128)] at hgetD
  have hbytes : ∀ a ∈ inputIndicesRead tv, clearIgnoredBit rx.bytes a = clearIgnoredBit rx'.bytes a := by
    intro a ha
    unfold clearIgnoredBit
    split
    next h =>
      subst h
      exact BitVec.eq_of_toNat_eq (by rw [and_0x7F_toNat, and_0x7F_toNat, hlow])
    next h => rw [Memory.bytes, Memory.bytes, hread a (not_inputIgnored_of_mem tv a ha) h]
  refine decodeReport_congr len (hread 0 (by cases tv <;> simp [inputIgnored]) (by decide)) ?_ ?_
  · intro a ha hn
    by_cases h : a = 30
    · subst h
      simpa using congrArg Option.isSome h30
    · rw [hread a (not_inputIgnored_of_mem tv a (mem_inputIndicesRead.mpr ⟨ha, hn⟩)) h]
  · rw [← inputRecord_clearIgnoredBit, inputRecord_congr tv hbytes, inputRecord_clearIgnoredBit]

/-- R90: DECCAL's decoder answers alike on two spaces that agree below index 35. -/
theorem decodeCal_congr {rx rx' : Memory} (len : Nat) (hread : ∀ a, a < 35 → rx.read a = rx'.read a) :
    decodeCal rx len = decodeCal rx' len := by
  have hlt : ∀ a ∈ calibrationIndices, a < 35 := by decide
  exact decodeReport_congr len (hread 0 (by decide)) (fun a ha _ => by rw [hread a (hlt a ha)])
    (calibrationRecord_congr fun a ha => by rw [Memory.bytes, Memory.bytes, hread a (hlt a ha)])

/-- Settles O21: each decoder answers alike on both contents, and only through its answer does `RXBUF` reach the next
state. -/
theorem ignoredBytesHaveNoEffect : Obligations.IgnoredBytesHaveNoEffect := by
  intro s t len m
  constructor
  · intro hread h30 hexec
    have hsame := decodeInput_congr (tv := Config.touchVariant) len hread h30
    obtain ⟨v, hv, rfl⟩ | ⟨st, hst, rfl⟩ := exec_decin_next hexec
    · rw [exec_decin, hsame, hv]; rfl
    · rw [exec_decin, hsame, hst]; rfl
  · intro hread hexec
    have hsame := decodeCal_congr len hread
    obtain ⟨v, hv, rfl⟩ | ⟨st, hst, rfl⟩ := exec_deccal_next hexec
    · rw [exec_deccal, hsame, hv]; rfl
    · rw [exec_deccal, hsame, hst]; rfl

end Sys2Proof.Machine
end

section
/-! PROOFS of the statements about DECIN and the fields of `IS` (spec/40_input_decoder.md): R110 to R128. -/

namespace Sys2Proof.Machine

/-! ### The three answers of DECIN -/

section Answers
variable {s : State} {len : Nat}

/-- R231: a report that is too short is answered TooShort, whatever `RXBUF` holds. -/
theorem exec_decin_tooShort (hlen : len < 64) :
    exec (.decin len) s = .next (respond .tooShort s) := by
  have hanswer : decodeInput Config.touchVariant s.RXBUF len = .error .tooShort := decodeReport_short hlen
  rw [exec_decin, hanswer]; rfl

/-- R232: a long enough report with a wrong byte 0 is answered UnexpectedReportId, whatever its other bytes are. -/
theorem exec_decin_unexpectedReportId {tag : Byte} (hlen : 64 ≤ len) (hread : s.RXBUF.read 0 = some tag)
    (htag : tag ≠ 0x01) : exec (.decin len) s = .next (respond .unexpectedReportId s) := by
  have hanswer : decodeInput Config.touchVariant s.RXBUF len = .error .unexpectedReportId :=
    decodeReport_badTag hlen hread htag
  rw [exec_decin, hanswer]; rfl

end Answers

/-- Settles O12: the checks of R111 in their order, each with the answer DECIN gives there. -/
theorem decinDecodesInputReport : Obligations.DecinDecodesInputReport := by
  refine ⟨fun _ => decode_decin, fun s len b hb => ?_⟩
  split
  next hshort => exact exec_decin_tooShort hshort
  next hlong =>
    have hlen : 64 ≤ len := Nat.not_lt.mp hlong
    split
    next htag => exact exec_decin_unexpectedReportId hlen (hb 0 (by omega)) htag
    next htag => exact exec_decin_accepted ⟨hlen, hb, not_not.mp htag⟩

/-! ### Values of the field forms -/

/-- R79, R116: the value of `byte[7:2]`. -/
theorem frameOf_toNat (x : Byte) : (frameOf x).toNat = x.toNat / 4 := by
  simp only [frameOf, BitVec.extractLsb'_toNat, Nat.shiftRight_eq_div_pow]
  omega

/-- R79: the value of `byte[7:4]`. -/
theorem highNibble_toNat (x : Byte) : (highNibble x).toNat = x.toNat / 16 := by
  simp only [highNibble, BitVec.extractLsb'_toNat, Nat.shiftRight_eq_div_pow]
  omega

/-- R79: the value of `byte[6:0]`. -/
theorem trackingId_toNat (x : Byte) : (trackingId x).toNat = x.toNat % 128 := by
  simp [trackingId]

/-- R12: the value of two bit strings side by side, the second being the less significant. -/
theorem toNat_append_eq_add {m n : Nat} (high : BitVec m) (low : BitVec n) :
    (high ++ low).toNat = low.toNat + 2 ^ n * high.toNat := by
  rw [BitVec.toNat_append, ← Nat.shiftLeft_add_eq_or_of_lt low.isLt, Nat.shiftLeft_eq]
  ring

/-- R78: `s16le` is the sign extension of the little-endian number. -/
theorem s16le_toInt_eq_sext16 (b : Nat → Byte) (a : Nat) : (s16le b a).toInt = sext16 (pairNumber b a) := by
  rw [s16le_toInt, sext16, pairNumber]
  push_cast
  rfl

/-- R81, R82, R123: the finger record of the model is the one of the spec's formula, active or not. -/
theorem isFinger_fingerAt (b : Nat → Byte) (f : Nat) : IsFinger (fingerAt b f) b f where
  active := rfl
  id := trackingId_toNat (b f)
  x := by rw [← lowNibble_toNat]; exact toNat_append_eq_add _ _
  y := by rw [← highNibble_toNat]; exact toNat_append_eq_add _ _

/-! ### The fields of an accepted report -/

/-- Settles O13: each of the six fields is one byte of the report. -/
theorem decinStickAndTriggerFields : Obligations.DecinStickAndTriggerFields := fun _ _ _ hacc =>
  ⟨_, exec_decin_accepted hacc, rfl, rfl, rfl, rfl, rfl, rfl⟩

/-- Settles O14: each button is one bit of the report, and the frame counter the upper six bits of byte 7. -/
theorem decinButtonFields : Obligations.DecinButtonFields := fun _ _ b hacc =>
  ⟨_, exec_decin_accepted hacc, rfl, rfl, rfl, rfl, rfl, rfl, rfl, rfl, rfl, rfl, rfl, rfl, rfl, rfl,
    frameOf_toNat (b 7)⟩

/-- Settles O16: the timestamp is `u16le` and each sample `s16le` of its two bytes. -/
theorem decinTimestampAndSampleFields : Obligations.DecinTimestampAndSampleFields := by
  intro s len b hacc
  have hsample := s16le_toInt_eq_sext16 b
  exact ⟨_, exec_decin_accepted hacc, u16le_toNat b 10, hsample 13, hsample 15, hsample 17, hsample 19, hsample 21,
    hsample 23⟩

/-- Settles O17: the level is the low nibble of byte 30, and the three flags are bits of that byte. -/
theorem decinBatteryFields : Obligations.DecinBatteryFields := fun _ _ b hacc =>
  ⟨_, exec_decin_accepted hacc, lowNibble_toNat (b 30), rfl, rfl, rfl⟩

/-- Settles O18: under each variant the two finger records of the model stand where R122 puts them. -/
theorem decinTouchFields : Obligations.DecinTouchFields := by
  intro s len b hacc
  refine ⟨_, exec_decin_accepted hacc, ?_⟩
  cases Config.touchVariant with
  | A => exact ⟨rfl, rfl, isFinger_fingerAt b 34, isFinger_fingerAt b 38⟩
  | B => exact ⟨rfl, rfl, isFinger_fingerAt b 35, isFinger_fingerAt b 39⟩

/-! ### Decoding the same report again -/

/-- R41, R57: whether a report is accepted depends on `RXBUF` alone. -/
theorem InputAccepted.of_RXBUF_eq {s t : State} {len : Nat} {b : Nat → Byte} (h : InputAccepted s len b)
    (hrx : t.RXBUF = s.RXBUF) : InputAccepted t len b :=
  ⟨h.long, hrx ▸ h.holds, h.tag⟩

/-- Settles O19: DECIN leaves `RXBUF` alone, so the report is accepted again and gives the same record. -/
theorem decinIsIdempotent : Obligations.DecinIsIdempotent := by
  intro s len b hacc
  have hagain : InputAccepted (respond .ok (s.setIS (inputRecord Config.touchVariant 1 b))) len b :=
    hacc.of_RXBUF_eq rfl
  exact ⟨_, _, exec_decin_accepted hacc, exec_decin_accepted hagain, rfl, by simp⟩

/-! ### The report of no input (R128) -/

/-- R113, R114: index 5 reaches the D-pad and four buttons only. -/
theorem inputRecord_congr_of_index5 (tv : TouchVariant) {b b' : Nat → Byte} (hother : ∀ a, a ≠ 5 → b a = b' a)
    (hdpad : dpadOf (lowNibble (b 5)) = dpadOf (lowNibble (b' 5)))
    (hbutton : ∀ i ∈ [4, 5, 6, 7], bitOf (b 5) i = bitOf (b' 5) i) : inputRecord tv 1 b = inputRecord tv 1 b' := by
  cases tv <;>
    simp [inputRecord, u16le, s16le, touchCount, touchCounter, fingerBase, fingerAt, hother, hdpad, hbutton]

/-- R79, R80: index 5 means the neutral D-pad and no button when its high nibble is 0 and its low nibble is 8 or
more. -/
theorem index5_neutral : ∀ x : Byte, 0x08 ≤ x.toNat → x.toNat ≤ 0x0F →
    dpadOf (lowNibble x) = .neutral ∧ ∀ i ∈ [4, 5, 6, 7], bitOf x i = false := by
  decide

/-- R128: every report of no input decodes as the one with 0x08 at index 5, and that one to the reset record. -/
theorem inputRecord_noInputReport (tv : TouchVariant) {x : Byte} (hlow : 0x08 ≤ x.toNat) (hhigh : x.toNat ≤ 0x0F) :
    inputRecord tv 1 (noInputReport tv x) = .reset := by
  obtain ⟨hdpad, hbutton⟩ := index5_neutral x hlow hhigh
  calc inputRecord tv 1 (noInputReport tv x)
      = inputRecord tv 1 (noInputReport tv 0x08) :=
        inputRecord_congr_of_index5 tv (fun a ha => by simp [noInputReport, ha]) hdpad
          fun i hi => (hbutton i hi).trans ((index5_neutral 0x08 (by decide) (by decide)).2 i hi).symm
    _ = .reset := by cases tv <;> rfl

/-- R128, C1: the zeros of the document's scenario read as North and as two active fingers. -/
theorem inputRecord_scenarioReport (tv : TouchVariant) :
    inputRecord tv 1 scenarioReport =
      { InputState.reset with
        dpad := .north
        f0 := { InputState.reset.f0 with active := true }
        f1 := { InputState.reset.f1 with active := true } } := by
  cases tv <;> rfl

/-- Settles O20: both buffers are accepted, and their records are the two above. -/
theorem noInputBufferDecodesToReset : Obligations.NoInputBufferDecodesToReset := by
  constructor
  · intro s x hlow hhigh hb
    rw [exec_decin_accepted ⟨le_rfl, hb, rfl⟩, inputRecord_noInputReport _ hlow hhigh]
    rfl
  · intro s hb
    rw [exec_decin_accepted ⟨le_rfl, hb, rfl⟩, inputRecord_scenarioReport]
    rfl

end Sys2Proof.Machine
end

section
/-! Proofs about LDOUT and ENCOUT (spec/41_output_encoder.md): what LDOUT does to the state, and that the output
report determines the output state it encodes. -/

namespace Sys2Proof.Machine

/-- Settles O27: the decoder's equation for op 0x05, and LDOUT's equation, which replaces `OS` and appends OK. -/
theorem ldoutLoadsOutputState : Obligations.LdoutLoadsOutputState :=
  ⟨fun _ => decode_ldout, fun s heavy light r g b on' off => exec_ldout heavy light r g b on' off s⟩

/-- R155: the output state read back from the seven positions of R151. -/
def outputStateOfReport (v : Vector Byte 32) : OutputState :=
  { heavy := v[5], light := v[4], led_r := v[6], led_g := v[7], led_b := v[8], flash_on := v[9], flash_off := v[10] }

theorem outputStateOfReport_encodeOutput : Function.LeftInverse outputStateOfReport encodeOutput := fun _ => rfl

/-- R155: `encode_output` is injective, because the seven positions give the output state back. -/
theorem encodeOutput_injective : Function.Injective encodeOutput :=
  outputStateOfReport_encodeOutput.injective

/-- Settles O29: ENCOUT leaves `OS` alone and writes its report, whose bytes 4 to 10 are the seven values. -/
theorem outputRoundTrip : Obligations.OutputRoundTrip := by
  refine ⟨fun s => ⟨_, exec_encout_next rfl, ?_⟩, fun _ _ h => encodeOutput_injective h⟩
  have hread := read_encoded s.TXBUF s.OS
  exact ⟨hread 4 (by decide), hread 5 (by decide), hread 6 (by decide), hread 7 (by decide), hread 8 (by decide),
    hread 9 (by decide), hread 10 (by decide)⟩

end Sys2Proof.Machine
end

section
/-! PROOFS of the statements about DECCAL and the fields of `CAL` (spec/42_calibration_decoder.md): R170 to R177. -/

namespace Sys2Proof.Machine

/-! ### The three answers of DECCAL -/

section Answers
variable {s : State} {len : Nat}

/-- R231: a record that is too short is answered TooShort, whatever `RXBUF` holds. -/
theorem exec_deccal_tooShort (hlen : len < 37) : exec (.deccal len) s = .next (respond .tooShort s) := by
  have hanswer : decodeCal s.RXBUF len = .error .tooShort := decodeReport_short hlen
  rw [exec_deccal, hanswer]; rfl

/-- R232: a long enough record with a wrong byte 0 is answered UnexpectedReportId, whatever its other bytes are. -/
theorem exec_deccal_unexpectedReportId {tag : Byte} (hlen : 37 ≤ len) (hread : s.RXBUF.read 0 = some tag)
    (htag : tag ≠ 0x02) : exec (.deccal len) s = .next (respond .unexpectedReportId s) := by
  have hanswer : decodeCal s.RXBUF len = .error .unexpectedReportId := decodeReport_badTag hlen hread htag
  rw [exec_deccal, hanswer]; rfl

end Answers

/-- Settles O32: the checks of R171 in their order, each with the answer DECCAL gives there. -/
theorem deccalDecodesCalibrationRecord : Obligations.DeccalDecodesCalibrationRecord := by
  refine ⟨fun _ => decode_deccal, fun s len b hb => ?_⟩
  split
  next hshort => exact exec_deccal_tooShort hshort
  next hlong =>
    have hlen : 37 ≤ len := Nat.not_lt.mp hlong
    split
    next htag => exact exec_deccal_unexpectedReportId hlen (hb 0 (by omega)) htag
    next htag => exact exec_deccal_accepted ⟨hlen, hb, not_not.mp htag⟩

/-! ### The fields of an accepted record -/

/-- Settles O33: each constant is `s16le` of its two bytes, whatever the flag of the record is. -/
theorem deccalConstantFields : Obligations.DeccalConstantFields := by
  intro s len b hacc
  have hconst := s16le_toInt_eq_sext16 b
  exact ⟨_, exec_deccal_accepted hacc, rfl, hconst 1, hconst 3, hconst 5, hconst 7, hconst 9, hconst 11, hconst 13,
    hconst 15, hconst 17, hconst 19, hconst 21, hconst 23, hconst 25, hconst 27, hconst 29, hconst 31, hconst 33⟩

/-! ### The flag of a record (R176) -/

/-- R176: the rule of the flag, as six integer differences. -/
theorem pairsValid_iff_differences_ne_zero (c : CalibrationData) :
    pairsValid c = true ↔
      c.gyro_pitch_plus.toInt - c.gyro_pitch_minus.toInt ≠ 0 ∧ c.gyro_yaw_plus.toInt - c.gyro_yaw_minus.toInt ≠ 0 ∧
      c.gyro_roll_plus.toInt - c.gyro_roll_minus.toInt ≠ 0 ∧ c.accel_x_plus.toInt - c.accel_x_minus.toInt ≠ 0 ∧
      c.accel_y_plus.toInt - c.accel_y_minus.toInt ≠ 0 ∧ c.accel_z_plus.toInt - c.accel_z_minus.toInt ≠ 0 := by
  simp only [pairsValid, pairDiff, Bool.and_eq_true, bne_iff_ne, and_assoc]

/-- R177: the exact integer difference is zero only for equal patterns, because `toInt` is injective. -/
theorem toInt_sub_toInt_ne_zero_iff (plus minus : Half) : plus.toInt - minus.toInt ≠ 0 ↔ plus ≠ minus := by
  rw [sub_ne_zero, Ne, BitVec.toInt_inj]

/-- R177: the same rule, as six pairs. -/
theorem pairsValid_iff_pairs_differ (c : CalibrationData) :
    pairsValid c = true ↔
      c.gyro_pitch_plus ≠ c.gyro_pitch_minus ∧ c.gyro_yaw_plus ≠ c.gyro_yaw_minus ∧
      c.gyro_roll_plus ≠ c.gyro_roll_minus ∧ c.accel_x_plus ≠ c.accel_x_minus ∧
      c.accel_y_plus ≠ c.accel_y_minus ∧ c.accel_z_plus ≠ c.accel_z_minus := by
  simp only [pairsValid_iff_differences_ne_zero, toInt_sub_toInt_ne_zero_iff]

/-- Settles O34: the flag of a record is the rule of its own pairs, read as differences or as pairs. -/
theorem deccalValidityMeansPairsDiffer : Obligations.DeccalValidityMeansPairsDiffer := by
  intro s len b hacc
  refine ⟨_, exec_deccal_accepted hacc, ?_⟩
  rw [respond_CAL, State.setCAL_CAL, calibrationRecord_valid]
  exact ⟨pairsValid_iff_differences_ne_zero _, pairsValid_iff_pairs_differ _⟩

end Sys2Proof.Machine
end

section
/-! PROOFS of the statements about the calibration engine (spec/43_calibration_engine.md): R190 to R208. -/

namespace Sys2Proof.Machine

/-! ### What CALIB answers -/

/-- Settles O35: the decoder's equation for op 0x04, and CALIB's equation, which replaces `CI` and appends OK. -/
theorem calibReplacesCi : Obligations.CalibReplacesCi := ⟨fun _ => decode_calib, exec_calib⟩

section Answers
variable {s : State}

/-- R192: with the flag at 1 all six axes take the calibrated formulas. -/
theorem exec_calib_of_valid (h : s.CAL.valid = true) :
    exec .calib s = .next (respond .ok (s.setCI
      { gyro_pitch := gyroCal s.IS.gyro_pitch s.CAL.gyro_pitch_bias s.CAL.gyro_pitch_plus s.CAL.gyro_pitch_minus
          s.CAL.gyro_speed_plus s.CAL.gyro_speed_minus
        gyro_yaw := gyroCal s.IS.gyro_yaw s.CAL.gyro_yaw_bias s.CAL.gyro_yaw_plus s.CAL.gyro_yaw_minus
          s.CAL.gyro_speed_plus s.CAL.gyro_speed_minus
        gyro_roll := gyroCal s.IS.gyro_roll s.CAL.gyro_roll_bias s.CAL.gyro_roll_plus s.CAL.gyro_roll_minus
          s.CAL.gyro_speed_plus s.CAL.gyro_speed_minus
        accel_x := accelCal s.IS.accel_x s.CAL.accel_x_plus s.CAL.accel_x_minus
        accel_y := accelCal s.IS.accel_y s.CAL.accel_y_plus s.CAL.accel_y_minus
        accel_z := accelCal s.IS.accel_z s.CAL.accel_z_plus s.CAL.accel_z_minus })) := by
  rw [exec_calib, calibrate, if_pos h]; rfl

/-- R192: with the flag at 0 all six axes take the nominal conversion, and no constant of `CAL` is read. -/
theorem exec_calib_of_not_valid (h : s.CAL.valid = false) :
    exec .calib s = .next (respond .ok (s.setCI
      { gyro_pitch := gyroNominal s.IS.gyro_pitch
        gyro_yaw := gyroNominal s.IS.gyro_yaw
        gyro_roll := gyroNominal s.IS.gyro_roll
        accel_x := accelNominal s.IS.accel_x
        accel_y := accelNominal s.IS.accel_y
        accel_z := accelNominal s.IS.accel_z })) := by
  rw [exec_calib, calibrate, if_neg (Bool.eq_false_iff.mp h)]; rfl

end Answers

/-- Settles O37: with the flag at 1 each gyro axis is `gyroCal`, which is the formula. -/
theorem calibGyroFormula : Obligations.CalibGyroFormula := fun _ h =>
  ⟨_, exec_calib_of_valid h, rfl, rfl, rfl⟩

/-- Settles O38: with the flag at 1 each accelerometer axis is `accelCal`, which is the formula. -/
theorem calibAccelFormula : Obligations.CalibAccelFormula := fun _ h =>
  ⟨_, exec_calib_of_valid h, rfl, rfl, rfl⟩

/-- Settles O44: under either flag each output is a conversion of its own axis's operands. -/
theorem calibAxesAreIndependent : Obligations.CalibAxesAreIndependent := by
  intro s s' hvalid
  cases h : s.CAL.valid with
  | false =>
    refine ⟨_, _, exec_calib_of_not_valid h, exec_calib_of_not_valid (hvalid ▸ h), fun _ _ => ⟨?_, ?_, ?_⟩, ?_, ?_, ?_⟩
    · exact fun hr _ _ _ => congrArg gyroNominal hr
    · exact fun hr _ _ _ => congrArg gyroNominal hr
    · exact fun hr _ _ _ => congrArg gyroNominal hr
    · exact fun hr _ _ => congrArg accelNominal hr
    · exact fun hr _ _ => congrArg accelNominal hr
    · exact fun hr _ _ => congrArg accelNominal hr
  | true =>
    refine ⟨_, _, exec_calib_of_valid h, exec_calib_of_valid (hvalid ▸ h), fun hsp hsm => ⟨?_, ?_, ?_⟩, ?_, ?_, ?_⟩
    all_goals intros; simp only [respond_CI, State.setCI_CI, *]

/-! ### Integers -/

/-- Settles O45: every such integer lies below `2 ^ 53`, where `i2f` is exact. -/
theorem integerConversionIsExact : Obligations.IntegerConversionIsExact := by
  refine ⟨i2f_zero, fun n hn => ?_⟩
  obtain ⟨hvalue, hclean⟩ := i2f_exact n (by omega)
  exact ⟨hclean.1, hvalue⟩

/-! ### The nominal conversion (R193) -/

/-- R12, R193: the divisor is 16.4 rounded to binary64. -/
theorem gyroDiv_rounded : RoundedNearestEven 0x4030666666666666 (164 / 10) := by
  have hpattern : signed false (roundRatio 164 10) = 0x4030666666666666 := by decide +kernel
  have hlo : (2 : ℚ) ^ (-1022 : ℤ) ≤ (164 : ℕ) / (10 : ℕ) :=
    (zpow_le_zpow_right₀ (by norm_num) (by norm_num : (-1022 : ℤ) ≤ 0)).trans (by norm_num)
  have hhi : ((164 : ℕ) : ℚ) / (10 : ℕ) < 2 ^ (1023 : ℤ) :=
    lt_of_lt_of_le (by norm_num) (zpow_le_zpow_right₀ (by norm_num) (by norm_num : (5 : ℤ) ≤ 1023))
  simpa [hpattern] using (rounded_signed false 164 10 (by decide) (by decide) hlo hhi).1

/-- Settles O36: the divisor is the rounded 16.4, the six outputs are the two nominal conversions, and the examples
are computed. -/
theorem calibNominalConversion : Obligations.CalibNominalConversion := by
  refine ⟨gyroDiv_rounded, fun s h => ⟨_, exec_calib_of_not_valid h, rfl, rfl, rfl, rfl, rfl, rfl, ?_⟩, ?_⟩
  · exact ⟨(gyroNominal_rounded _).1, (gyroNominal_rounded _).1, (gyroNominal_rounded _).1,
      accelNominal_exact _, accelNominal_exact _, accelNominal_exact _⟩
  · decide +kernel

/-! ### One rounding (R205) -/

/-- R194: the denominator of an axis, as a rational. -/
theorem cast_pairRange (plus minus : Half) : (pairRange plus minus : ℚ) = |(plus.toInt : ℚ) - minus.toInt| := by
  rw [pairRange, pairDiff, Nat.cast_natAbs]; push_cast; rfl

/-- R177: the denominator of an axis is zero only where its pair is equal. -/
theorem pairRange_ne_zero_iff {plus minus : Half} : pairRange plus minus ≠ 0 ↔ plus ≠ minus := by
  rw [pairRange, Int.natAbs_ne_zero]; exact toInt_sub_toInt_ne_zero_iff plus minus

section Pair
variable {plus minus : Half} (h : plus ≠ minus)
include h

/-- R205 for a gyro axis, on the operands of R194. -/
theorem gyroCal_rounded_of_ne (r bias sp sm : Half) :
    RoundedNearestEven (gyroCal r bias plus minus sp sm)
      (((r.toInt : ℚ) - bias.toInt) * (sp.toInt + sm.toInt) / |(plus.toInt : ℚ) - minus.toInt|) := by
  simpa [cast_pairRange] using (gyroCal_rounded r bias plus minus sp sm (pairRange_ne_zero_iff.mpr h)).1

/-- R205 for an accelerometer axis, on the operands of R196: halving the divisor doubles the dividend. -/
theorem accelCal_rounded_of_ne (r : Half) :
    RoundedNearestEven (accelCal r plus minus)
      (2 * ((r.toInt : ℚ) - ((plus.toInt + minus.toInt).tdiv 2 : ℤ)) / |(plus.toInt : ℚ) - minus.toInt|) := by
  have hquotient := (accelCal_rounded r plus minus (pairRange_ne_zero_iff.mpr h)).1
  rwa [div_div_eq_mul_div, mul_comm, cast_pairRange, Int.cast_sub, accelCenter] at hquotient

end Pair

/-- Settles O40: the rounded quotient of each calibrated axis whose pair differs, and of each nominal axis. -/
theorem calibOutputsRoundedOnce : Obligations.CalibOutputsRoundedOnce := by
  constructor
  · intro s h
    exact ⟨_, exec_calib_of_valid h, fun hne => gyroCal_rounded_of_ne hne .., fun hne => gyroCal_rounded_of_ne hne ..,
      fun hne => gyroCal_rounded_of_ne hne .., fun hne => accelCal_rounded_of_ne hne _,
      fun hne => accelCal_rounded_of_ne hne _, fun hne => accelCal_rounded_of_ne hne _⟩
  · intro s h
    exact ⟨_, exec_calib_of_not_valid h, (gyroNominal_rounded _).1, (gyroNominal_rounded _).1,
      (gyroNominal_rounded _).1, accelNominal_exact _, accelNominal_exact _, accelNominal_exact _⟩

/-! ### Sign and order of the pair (R207) -/

section Rounding
variable {x y : F64} {q : ℚ} (hx : RoundedNearestEven x q) (hy : f64Finite y = true)
include hx hy

/-- Rounding does not pass a binary64 number from above: that number would be nearer. -/
theorem RoundedNearestEven.le_f64Value (hle : f64Value y ≤ q) : f64Value y ≤ f64Value x := by
  have hnear := (abs_le.mp (hx.nearest y hy)).1
  rw [abs_of_nonpos (sub_nonpos.mpr hle)] at hnear
  linarith

/-- Rounding does not pass a binary64 number from below: that number would be nearer. -/
theorem RoundedNearestEven.f64Value_le (hle : q ≤ f64Value y) : f64Value x ≤ f64Value y := by
  have hnear := (abs_le.mp (hx.nearest y hy)).2
  rw [abs_of_nonneg (sub_nonneg.mpr hle)] at hnear
  linarith

end Rounding

/-- The pattern of `2 ^ -17`, which no non-zero quotient of the engine is below, and its negative. -/
theorem f64Value_signed_two_pow_neg_17 (neg : Bool) :
    f64Value (signed neg (1006 * 2 ^ 52)) = (if neg then -1 else 1) * (1 / 2 ^ 17) := by
  rw [f64Value_signed neg _ (by norm_num)]
  norm_num [magValue]

/-- R207: a rounded quotient of the engine keeps the sign of its dividend, because `2 ^ -17` or its negative lies
between a non-zero quotient and zero. -/
theorem RoundedNearestEven.sign_eq_sign_dividend {x : F64} {a : ℤ} {v : ℚ} (hx : RoundedNearestEven x (a / v))
    (hv : 0 < v) (hv17 : v ≤ 2 ^ 17) : SignType.sign (f64Value x) = SignType.sign a := by
  rcases lt_trichotomy a 0 with ha | rfl | ha
  · have haq : (a : ℚ) ≤ -1 := by exact_mod_cast Int.le_sub_one_of_lt ha
    have hle := hx.f64Value_le (y := signed true (1006 * 2 ^ 52)) (by decide) (by
      rw [f64Value_signed_two_pow_neg_17, if_pos rfl, div_le_iff₀ hv]; linarith)
    rw [f64Value_signed_two_pow_neg_17, if_pos rfl] at hle
    rw [sign_neg ha, sign_neg (by linarith)]
  · rw [hx.plusZero (by simp), sign_zero, (f64Mant_eq_zero_iff 0).mp (by decide), sign_zero]
  · have haq : (1 : ℚ) ≤ a := by exact_mod_cast ha
    have hle := hx.le_f64Value (y := signed false (1006 * 2 ^ 52)) (by decide) (by
      rw [f64Value_signed_two_pow_neg_17, if_neg Bool.false_ne_true, le_div_iff₀ hv]; linarith)
    rw [f64Value_signed_two_pow_neg_17, if_neg Bool.false_ne_true] at hle
    rw [sign_pos ha, sign_pos (by linarith)]

section Sign
variable {plus minus : Half} (h : plus ≠ minus)
include h

/-- R207 for a gyro axis. -/
theorem sign_gyroCal (r bias sp sm : Half) :
    SignType.sign (f64Value (gyroCal r bias plus minus sp sm)) =
      SignType.sign ((r.toInt - bias.toInt) * (sp.toInt + sm.toInt)) := by
  have hrange := pairRange_ne_zero_iff.mpr h
  obtain ⟨-, -, -, hlow, hhigh⟩ := i2f_den _ hrange (pairRange_le plus minus)
  exact (gyroCal_rounded r bias plus minus sp sm hrange).1.sign_eq_sign_dividend (by linarith) (by linarith)

/-- R207 for an accelerometer axis. -/
theorem sign_accelCal (r : Half) :
    SignType.sign (f64Value (accelCal r plus minus)) =
      SignType.sign (r.toInt - (plus.toInt + minus.toInt).tdiv 2) := by
  have hrange := pairRange_ne_zero_iff.mpr h
  obtain ⟨-, -, -, hlow, hhigh⟩ := i2f_den _ hrange (pairRange_le plus minus)
  exact (accelCal_rounded r plus minus hrange).1.sign_eq_sign_dividend (by linarith) (by linarith)

end Sign

/-- R207: a gyro axis takes its pair only through the range, which has no order. -/
theorem gyroCal_pair_comm (r bias plus minus sp sm : Half) :
    gyroCal r bias plus minus sp sm = gyroCal r bias minus plus sp sm := by
  rw [gyroCal, gyroCal, pairRange_comm]

/-- R207: an accelerometer axis takes its pair only through the range and the centre, which have no order. -/
theorem accelCal_pair_comm (r plus minus : Half) : accelCal r plus minus = accelCal r minus plus := by
  rw [accelCal, accelCal, pairRange_comm, accelCenter_comm]

/-- R207: exchanging the plus and minus of an axis changes no output. -/
theorem calibrate_swapPair (raw : IMURaw) (c : CalibrationData) (x : Axis) :
    calibrate raw (c.swapPair x) = calibrate raw c := by
  cases x <;> simp only [calibrate, CalibrationData.swapPair, gyroCal_pair_comm, accelCal_pair_comm]

/-- Settles O43: each calibrated axis has the sign of its dividend, and `calibrate` does not see the order of a
pair. -/
theorem calibSignAndPairOrder : Obligations.CalibSignAndPairOrder := by
  refine ⟨fun s h => ⟨_, exec_calib_of_valid h, ?_⟩, fun s x => ⟨_, exec_calib s, ?_⟩⟩
  · exact ⟨fun hne => sign_gyroCal hne .., fun hne => sign_gyroCal hne .., fun hne => sign_gyroCal hne ..,
      fun hne => sign_accelCal hne _, fun hne => sign_accelCal hne _, fun hne => sign_accelCal hne _⟩
  · rw [exec_calib, calibrate_swapPair]; rfl

end Sys2Proof.Machine
end

section
/-! PROOFS of the statements about the statuses and what an error does (spec/60_exceptions.md): R230 to R236. -/

namespace Sys2Proof.Machine

/-! ### What an operation returned -/

section Operation
variable {s t : State} {i : Instr}

/-- R230: the status returned at a state with the record of `s` is the one that the record of `s` was extended by. -/
theorem eq_of_respond_statuses {u : State} {st st' : Status} (hu : u.statuses = s.statuses)
    (hresp : (respond st u).statuses = s.statuses ++ [st']) : st = st' := by
  simpa [hu] using hresp

/-- R230: an operation returned one status, and every other record of statuses gets the same status and the same
rest of the state. -/
theorem Effect.exec_statuses (h : Effect s i t) (old : List Status) :
    ∃ st, t.statuses = s.statuses ++ [st] ∧
      exec i { s with statuses := old } = .next { t with statuses := old ++ [st] } := by
  cases h with
  | decinOk len v hv => exact ⟨.ok, rfl, by rw [exec_decin, hv]; rfl⟩
  | decinError len st hst => exact ⟨st, rfl, by rw [exec_decin, hst]; rfl⟩
  | encout m hm => exact ⟨.ok, rfl, exec_encout_next hm⟩
  | deccalOk len v hv => exact ⟨.ok, rfl, by rw [exec_deccal, hv]; rfl⟩
  | deccalError len st hst => exact ⟨st, rfl, by rw [exec_deccal, hst]; rfl⟩
  | calib v hv => exact ⟨.ok, rfl, by rw [hv]; exact exec_calib _⟩
  | ldout a b c d e f g => exact ⟨.ok, rfl, exec_ldout a b c d e f g _⟩

/-- R235, R241: an operation that returned an error did nothing else, and it was one of the two decoders. -/
theorem Effect.error_cases (h : Effect s i t) {st : Status} (hst : t.statuses = s.statuses ++ [st])
    (hne : st ≠ .ok) :
    t = respond st s ∧
      ((∃ len, i = .decin len ∧ decodeInput Config.touchVariant s.RXBUF len = .error st) ∨
        (∃ len, i = .deccal len ∧ decodeCal s.RXBUF len = .error st)) := by
  cases h with
  | decinError len st' herr => obtain rfl := eq_of_respond_statuses rfl hst; exact ⟨rfl, .inl ⟨len, rfl, herr⟩⟩
  | deccalError len st' herr => obtain rfl := eq_of_respond_statuses rfl hst; exact ⟨rfl, .inr ⟨len, rfl, herr⟩⟩
  | decinOk | encout | deccalOk | calib | ldout => exact absurd (eq_of_respond_statuses rfl hst).symm hne

end Operation

/-- Settles O22: both decoders look at the length before any byte, and of their two errors TooShort is the one of
the length check. -/
theorem tooShortIsRaisedByLengthAlone : Obligations.TooShortIsRaisedByLengthAlone := by
  refine ⟨rfl, fun _ _ => exec_decin_tooShort, fun _ _ => exec_deccal_tooShort, fun i s t hexec hst => ?_⟩
  obtain ⟨-, ⟨len, rfl, herr⟩ | ⟨len, rfl, herr⟩⟩ := (exec_effect hexec).error_cases hst (by decide) <;>
    obtain ⟨hlen, -⟩ | ⟨-, -, hcontra⟩ := decodeReport_error herr
  · exact .inl ⟨len, hlen, rfl⟩
  · cases hcontra
  · exact .inr ⟨len, hlen, rfl⟩
  · cases hcontra

/-- Settles O23: past the length check both decoders look at byte 0 alone, and of their two errors
UnexpectedReportId is the one of the tag check. -/
theorem unexpectedReportIdIsRaisedByTag : Obligations.UnexpectedReportIdIsRaisedByTag := by
  refine ⟨rfl, fun _ _ _ => exec_decin_unexpectedReportId, fun _ _ _ => exec_deccal_unexpectedReportId,
    fun i s t hexec hst => ?_⟩
  obtain ⟨-, ⟨len, rfl, herr⟩ | ⟨len, rfl, herr⟩⟩ := (exec_effect hexec).error_cases hst (by decide) <;>
    obtain ⟨-, hcontra⟩ | ⟨hlen, ⟨x, hread, hx⟩, -⟩ := decodeReport_error herr
  · cases hcontra
  · exact ⟨x, len, hread, .inl ⟨rfl, hlen, hx⟩⟩
  · cases hcontra
  · exact ⟨x, len, hread, .inr ⟨rfl, hlen, hx⟩⟩

/-! ### What a command returned -/

section Command
variable {s t : State} {c : Command} {rest : List HostAction}

/-- R60, R73: a step that took a command and answered a next state ran the command's operation, or returned
IllegalOp, at the state without the command. -/
theorem step_command_cases (hp : s.pending = .command c :: rest) (h : step s = .next t) :
    (∃ i, decode c = .ok i ∧ Effect (s.setPending rest) i t) ∨
      (∃ op, decode c = .error (.illegalOp op) ∧ t = respond .illegalOp (s.setPending rest)) := by
  obtain ⟨hnil, -⟩ | ⟨x, rest', hp', hact⟩ := step_cases h
  · simp [hp] at hnil
  obtain ⟨rfl, rfl⟩ : HostAction.command c = x ∧ rest = rest' := by simpa [hp] using hp'
  obtain ⟨_, _, hx, -⟩ | ⟨hx, -⟩ | ⟨_, i, hx, hd, he⟩ | ⟨_, op, hx, hd, ht⟩ := hact <;> cases hx
  · exact .inl ⟨i, hd, he⟩
  · exact .inr ⟨op, hd, ht⟩

/-- R230, R236: a command that answered a next state returned one status, and after any other record of statuses it
returns the same status and does the same. -/
theorem step_command_statuses (hp : s.pending = .command c :: rest) (h : step s = .next t) (old : List Status) :
    ∃ st, t.statuses = s.statuses ++ [st] ∧
      step { s with statuses := old } = .next { t with statuses := old ++ [st] } := by
  have hp' : State.pending { s with statuses := old } = .command c :: rest := hp
  obtain ⟨i, hd, he⟩ | ⟨op, hd, rfl⟩ := step_command_cases hp h
  · rw [step_command_of_decode_ok hp' hd]
    exact he.exec_statuses old
  · exact ⟨.illegalOp, rfl, step_command_of_decode_illegalOp hp' hd⟩

/-- R71, R73: the `op` byte is that of an operation, or it is illegal. -/
theorem op_cases (op : Byte) :
    op = 0x01 ∨ op = 0x02 ∨ op = 0x03 ∨ op = 0x04 ∨ op = 0x05 ∨ op = 0x00 ∨ 0x06 ≤ op.toNat := by
  revert op
  decide

/-- R230: a command whose `len` is in range and whose bytes are supplied answers a next state. -/
theorem step_command_of_lawful (hp : s.pending = .command c :: rest)
    (hlaw : HostAction.lawful s.RXBUF (.command c)) : ∃ t, step s = .next t := by
  obtain hop | hop | hop | hop | hop | hop := op_cases c.op
  · obtain ⟨hlen, hsup⟩ := hlaw (.inl hop)
    rw [step_command_of_decode_ok hp (decode_decin hop hlen)]
    exact exec_decin_supplied hsup
  · exact ⟨_, step_command_of_decode_ok hp (decode_encout hop)⟩
  · obtain ⟨hlen, hsup⟩ := hlaw (.inr hop)
    rw [step_command_of_decode_ok hp (decode_deccal hop hlen)]
    exact exec_deccal_supplied hsup
  · exact ⟨_, step_command_of_decode_ok hp (decode_calib hop)⟩
  · exact ⟨_, step_command_of_decode_ok hp (decode_ldout hop)⟩
  · exact ⟨_, step_command_of_decode_illegalOp hp (decode_illegalOp hop)⟩

end Command

/-- Settles O24: IllegalOp is returned at the state without the command, and an operation that returns an error does
nothing else. -/
theorem errorChangesNothing : Obligations.ErrorChangesNothing := by
  intro s t c rest st hp hstep hst hne
  obtain ⟨i, -, he⟩ | ⟨op, -, rfl⟩ := step_command_cases hp hstep
  · obtain ⟨rfl, -⟩ := he.error_cases hst hne
    rfl
  · obtain rfl := eq_of_respond_statuses rfl hst
    rfl

/-- Settles O25: a lawful command completes, and a command that completes returned one status. -/
theorem everyCommandReturnsOneStatus : Obligations.EveryCommandReturnsOneStatus := by
  have hone : ∀ (s t : State) (c : Command) (rest : List HostAction),
      s.pending = .command c :: rest → step s = .next t → ∃ st, t.statuses = s.statuses ++ [st] := by
    intro s t c rest hp hstep
    obtain ⟨st, hst, -⟩ := step_command_statuses hp hstep []
    exact ⟨st, hst⟩
  refine ⟨rfl, rfl, rfl, rfl, fun s c rest hp hlaw => ?_, hone⟩
  obtain ⟨t, hstep⟩ := step_command_of_lawful hp hlaw
  obtain ⟨st, hst⟩ := hone s t c rest hp hstep
  exact ⟨t, st, hstep, hst⟩

/-- Settles O26: no operation, and no answer to an illegal `op`, reads the record of statuses. -/
theorem statusesInfluenceNothing : Obligations.StatusesInfluenceNothing :=
  fun _ _ _ _ old hp hstep => step_command_statuses hp hstep old

end Sys2Proof.Machine
end

section
/-! PROOFS of the statements about commands as numbers and the step that takes one (spec/30_encoding.md, R70 to R73;
R42, R60, R261): `DecodeOfEncodeWord`, `OperationTableWordsDecode`, `LenBeyondCapacityIsRefused`,
`StepRunsDecodedCommand`, `WaitingChangesNothing`. -/

namespace Sys2Proof.Machine

/-! ### Commands as numbers -/

/-- Settles O1: a command's number reads back as the command, and the command of an operation decodes to it. -/
theorem decodeOfEncodeWord : Obligations.DecodeOfEncodeWord := by
  intro i hwf
  rw [decodeWord, encodeWord, ofWord_toWord]
  cases i with
  | decin len => exact Laws.Encoding.decin len hwf
  | encout => exact Laws.Encoding.encout hwf
  | deccal len => exact Laws.Encoding.deccal len hwf
  | calib => exact Laws.Encoding.calib hwf
  | ldout heavy light ledR ledG ledB flashOn flashOff =>
    exact Laws.Encoding.ldout heavy light ledR ledG ledB flashOn flashOff hwf

/-- A row of the operation table gives the operation its command decodes to. -/
theorem decodeTableWord_eq_some_iff {nbits w : Nat} {i : Instr} :
    decodeTableWord nbits w = some i ↔ decode (commandOfTableWord nbits w) = .ok i := by
  unfold decodeTableWord
  cases decode (commandOfTableWord nbits w) <;> simp

/-- R7, D26: the capacity is at least 64. -/
theorem sixtyFour_le_rxCap : 64 ≤ Config.rxCap := Nat.le_add_left 64 _

/-- Settles O3: the words whose operation has a `len` decode because 0 and 64 are in range; the others do not depend on
`RX_CAP`, and on them the decoder computes. -/
theorem operationTableWordsDecode : Obligations.OperationTableWordsDecode :=
  ⟨decodeTableWord_eq_some_iff.mpr (decode_decin rfl (Nat.zero_le _)), rfl,
    decodeTableWord_eq_some_iff.mpr (decode_deccal rfl (Nat.zero_le _)), rfl, rfl, rfl,
    decode_decin rfl sixtyFour_le_rxCap, rfl, rfl, rfl⟩

/-! ### The step -/

theorem withLen_lenOutOfRange {len : Nat} {mk : Nat → Instr} (h : Config.rxCap < len) :
    withLen len mk = .error (.lenOutOfRange len) := if_neg (Nat.not_le.mpr h)

/-- R70: a DECIN or DECCAL whose `len` exceeds `RX_CAP` selects no operation. -/
theorem decode_lenOutOfRange {c : Command} (hop : c.op = 0x01 ∨ c.op = 0x03) (hlen : Config.rxCap < c.len) :
    decode c = .error (.lenOutOfRange c.len) := by
  obtain hop | hop := hop <;>
  · rw [decode, hop]
    exact withLen_lenOutOfRange hlen

/-- Settles O5: the decoder rejects the `len`, and the step refuses what the decoder rejects so. -/
theorem lenBeyondCapacityIsRefused : Obligations.LenBeyondCapacityIsRefused := by
  intro c s rest hop hlen hp
  rw [step_cons hp, runAction, runCommand, decode_lenOutOfRange hop hlen]

/-- Settles O6: the step takes the oldest action, which `withFetchWord` makes the command of the table word. -/
theorem stepRunsDecodedCommand : Obligations.StepRunsDecodedCommand :=
  ⟨fun _ _ _ _ hp hd => ⟨decode_wellFormed hd, step_command_of_decode_ok hp hd⟩,
    fun s _ _ _ hw => step_command_of_decode_ok (rest := s.pending) rfl (decodeTableWord_eq_some_iff.mp hw)⟩

/-- Settles O7: a step takes an action only where one is pending. -/
theorem waitingChangesNothing : Obligations.WaitingChangesNothing := fun _ => step_nil

end Sys2Proof.Machine
end

section
/-! PROOFS of the statements about the host's load and the reset event (R41, R50, R260, R261): `HostLoadPlacesBytes`,
`ResetEventRestoresRegisters`. -/

namespace Sys2Proof.Machine

section StepLoad
variable {s : State} {a : Nat} {bs : List Byte} {rest : List HostAction}

/-- R41: a load below `RX_CAP` writes its bytes to `RXBUF`. -/
theorem step_loadRx_within (hp : s.pending = .loadRx a bs :: rest) (hle : a + bs.length ≤ Config.rxCap) :
    step s = .next ((s.setPending rest).setRXBUF (s.RXBUF.writeBytes a bs)) := by
  rw [step_cons hp, runAction, runLoadRx, if_pos hle]; rfl

/-- R50: a load past `RX_CAP` faults. -/
theorem step_loadRx_beyond (hp : s.pending = .loadRx a bs :: rest) (hlt : Config.rxCap < a + bs.length) :
    step s = .fault (.rxIndexBeyondCapacity (max a Config.rxCap)) := by
  rw [step_cons hp, runAction, runLoadRx, if_neg (Nat.not_le.mpr hlt)]

end StepLoad

/-- R50: `TXBUF` has no index from 32 up. -/
theorem hostReadTx_of_le {s : State} {a : Nat} (h : 32 ≤ a) : hostReadTx a s = .fault (.txIndexOutOfRange a) :=
  if_neg (Nat.not_lt.mpr h)

/-- Settles O8: the space after a load is `RXBUF` with the bytes written at consecutive indices. -/
theorem hostLoadPlacesBytes : Obligations.HostLoadPlacesBytes := by
  refine ⟨fun s a bs rest hp => ⟨fun hle => ⟨_, step_loadRx_within hp hle, ?_, ?_, ?_⟩, step_loadRx_beyond hp⟩,
    fun _ _ => hostReadTx_of_le⟩
  · exact fun k hk => Memory.read_writeBytes_inside s.RXBUF a bs k hk
  · exact fun x hx => Memory.read_writeBytes_outside s.RXBUF a bs x hx
  · exact fun hwf => Memory.wf_writeBytes hwf a bs

/-- R49, R260: the registers after the reset event are those after power-on. -/
theorem resetValues_resetBlock (s : State) : ResetValues (resetBlock s) :=
  have h := powerOnHoldsResetValues
  ⟨h.sticks, h.dpad, h.buttons, h.triggers, h.counters, h.samples, h.battery, h.touch, h.cal, h.os, h.ci, h.txbuf⟩

/-- Settles O9: the step resets the block at the state without the reset event, which touches the registers only. -/
theorem resetEventRestoresRegisters : Obligations.ResetEventRestoresRegisters := fun _ _ hp =>
  ⟨_, step_cons hp, resetValues_resetBlock _, rfl, rfl, rfl⟩

end Sys2Proof.Machine
end

section
/-! PROOFS of the statements about single values of the calibration engine (spec/43_calibration_engine.md, R195, R199,
R206): `CalibGuardReturnsSample`, `CalibZeroMultiplierGivesPlusZero`, `CalibOutputsCleanAndBounded`. -/

namespace Sys2Proof.Machine

/-! ### The guard (R199) -/

/-- R194: the denominator of an axis is zero where its pair is equal. -/
theorem pairRange_self (p : Half) : pairRange p p = 0 := by
  rw [pairRange, pairDiff, sub_self, Int.natAbs_zero]

/-- R204: the binary64 number of a sample is the sample. -/
theorem f64Value_i2f_sample (r : Half) : f64Value (i2f r.toInt) = r.toInt := by
  have h := half_toInt_range r
  exact (i2f_exact r.toInt (by omega)).1

/-- R199 for a gyro axis. -/
theorem f64Value_gyroCal_of_eq {plus minus : Half} (h : plus = minus) (r bias sp sm : Half) :
    f64Value (gyroCal r bias plus minus sp sm) = r.toInt := by
  rw [h, gyroCal_guard _ _ _ _ _ _ (pairRange_self minus), f64Value_i2f_sample]

/-- R199 for an accelerometer axis. -/
theorem f64Value_accelCal_of_eq {plus minus : Half} (h : plus = minus) (r : Half) :
    f64Value (accelCal r plus minus) = r.toInt := by
  rw [h, accelCal_guard _ _ _ (pairRange_self minus), f64Value_i2f_sample]

/-- Settles O39: an equal pair has a zero denominator, and there the guard converts the sample, exactly. -/
theorem calibGuardReturnsSample : Obligations.CalibGuardReturnsSample := fun _ h =>
  ⟨_, exec_calib_of_valid h, fun heq => f64Value_gyroCal_of_eq heq .., fun heq => f64Value_gyroCal_of_eq heq ..,
    fun heq => f64Value_gyroCal_of_eq heq .., fun heq => f64Value_accelCal_of_eq heq _,
    fun heq => f64Value_accelCal_of_eq heq _, fun heq => f64Value_accelCal_of_eq heq _⟩

/-! ### A zero multiplier (R195) -/

/-- R195: a zero multiplier makes the exact quotient 0, which is rounded to +0.0. -/
theorem gyroCal_eq_zero {plus minus sp sm : Half} (hne : plus ≠ minus) (hzero : sp.toInt + sm.toInt = 0)
    (r bias : Half) : gyroCal r bias plus minus sp sm = 0 := by
  refine (gyroCal_rounded r bias plus minus sp sm (pairRange_ne_zero_iff.mpr hne)).1.plusZero ?_
  rw [hzero, mul_zero, Int.cast_zero, zero_div]

/-- Settles O42: the multiplier is common to the three gyro axes. -/
theorem calibZeroMultiplierGivesPlusZero : Obligations.CalibZeroMultiplierGivesPlusZero := fun _ h hzero =>
  ⟨_, exec_calib_of_valid h, fun hne => gyroCal_eq_zero hne hzero .., fun hne => gyroCal_eq_zero hne hzero ..,
    fun hne => gyroCal_eq_zero hne hzero ..⟩

/-! ### Ranges (R206) -/

section Bound
variable {x : F64} {a : ℤ} {v : ℚ} (hx : RoundedNearestEven x (a / v)) (hv : 0 < v)
include hx hv

/-- A rounded quotient is at most any finite magnitude that the exact one is at most: rounding passes neither that
number nor its negative. -/
theorem RoundedNearestEven.abs_le_magValue {m : ℕ} (hm : m < 2047 * 2 ^ 52) (hle : |(a : ℚ)| ≤ magValue m * v) :
    |f64Value x| ≤ magValue m := by
  have hfinite : ∀ neg, f64Finite (signed neg m) = true := fun neg => by
    simp only [f64Finite, f64Exp_signed neg m (by omega), bne_iff_ne]; omega
  have hneg : f64Value (signed true m) = -magValue m := by simp [f64Value_signed true m (by omega)]
  have hpos : f64Value (signed false m) = magValue m := by simp [f64Value_signed false m (by omega)]
  have hquotient : |(a : ℚ) / v| ≤ magValue m := by
    rwa [abs_div, abs_of_pos hv, div_le_iff₀ hv]
  obtain ⟨hlow, hhigh⟩ := abs_le.mp hquotient
  rw [← hneg] at hlow
  rw [← hpos] at hhigh
  exact abs_le.mpr ⟨hneg ▸ hx.le_f64Value (hfinite true) hlow, hpos ▸ hx.f64Value_le (hfinite false) hhigh⟩

/-- The same for a bound that is an integer of at most 53 bits. -/
theorem RoundedNearestEven.abs_le_natCast {n : ℕ} (hn : n ≠ 0) (hlt : n < 2 ^ 53) (hle : |(a : ℚ)| ≤ n * v) :
    |f64Value x| ≤ n := by
  obtain ⟨hvalue, -, hfinite⟩ := roundRatio_int n hn hlt
  rw [← hvalue] at hle ⊢
  exact hx.abs_le_magValue hv hfinite hle

end Bound

theorem abs_cast_le {a : ℤ} {n : ℕ} (h : a.natAbs ≤ n) : |(a : ℚ)| ≤ n := by
  rw [← Int.cast_abs, ← Nat.cast_natAbs]; exact_mod_cast h

theorem abs_sample_le (r : Half) : |(r.toInt : ℚ)| ≤ 32768 := by
  have h := half_toInt_range r
  exact abs_cast_le (n := 32768) (by omega)

/-- The pattern of 1998 + 25 / 512, which lies between 32768 / 16.4 and 1998.05. -/
theorem magValue_gyroNominal_bound : magValue (1033 * 2 ^ 52 + 498713 * 2 ^ 33) = 1023001 / 512 := by
  norm_num [magValue]

/-- R206: the nominal gyro. -/
theorem abs_gyroNominal_le (r : Half) : |f64Value (gyroNominal r)| ≤ 1998.05 := by
  have hle := (gyroNominal_rounded r).1.abs_le_magValue (m := 1033 * 2 ^ 52 + 498713 * 2 ^ 33)
    (by rw [gyroDiv_value]; norm_num) (by norm_num)
    ((abs_sample_le r).trans (by rw [gyroDiv_value, magValue_gyroNominal_bound]; norm_num))
  rw [magValue_gyroNominal_bound] at hle
  exact hle.trans (by norm_num)

/-- R206: the nominal accelerometer. -/
theorem abs_accelNominal_le (r : Half) : |f64Value (accelNominal r)| ≤ 4 := by
  rw [accelNominal_exact, abs_div, abs_of_pos (by norm_num : (0 : ℚ) < 8192), div_le_iff₀ (by norm_num)]
  exact (abs_sample_le r).trans (by norm_num)

theorem one_le_cast_pairRange {plus minus : Half} (hne : plus ≠ minus) : (1 : ℚ) ≤ pairRange plus minus :=
  Nat.one_le_cast.mpr (Nat.one_le_iff_ne_zero.mpr (pairRange_ne_zero_iff.mpr hne))

/-- R206: the calibrated gyro is at most its product, which is divided by at least 1. -/
theorem abs_gyroCal_le (r bias plus minus sp sm : Half) :
    |f64Value (gyroCal r bias plus minus sp sm)| ≤ 4294901760 := by
  by_cases heq : plus = minus
  · rw [f64Value_gyroCal_of_eq heq]
    exact (abs_sample_le r).trans (by norm_num)
  · have hden := one_le_cast_pairRange heq
    have hnum : |(((r.toInt - bias.toInt) * (sp.toInt + sm.toInt) : ℤ) : ℚ)| ≤ (4294901760 : ℕ) :=
      abs_cast_le (gyroProduct_range r bias sp sm)
    exact (gyroCal_rounded r bias plus minus sp sm (pairRange_ne_zero_iff.mpr heq)).1.abs_le_natCast (by linarith)
      (by norm_num) (by norm_num) (hnum.trans (le_mul_of_one_le_right (Nat.cast_nonneg _) hden))

/-- R206: the calibrated accelerometer is at most twice its dividend, which is divided by at least 1/2. -/
theorem abs_accelCal_le (r plus minus : Half) : |f64Value (accelCal r plus minus)| ≤ 131070 := by
  by_cases heq : plus = minus
  · rw [f64Value_accelCal_of_eq heq]
    exact (abs_sample_le r).trans (by norm_num)
  · have hden := one_le_cast_pairRange heq
    have hr := half_toInt_range r
    have hc := accelCenter_range plus minus
    have hnum : |((r.toInt - accelCenter plus minus : ℤ) : ℚ)| ≤ (65535 : ℕ) := abs_cast_le (by omega)
    push_cast at hnum
    exact (accelCal_rounded r plus minus (pairRange_ne_zero_iff.mpr heq)).1.abs_le_natCast (n := 131070)
      (by linarith) (by norm_num) (by norm_num) (by push_cast; linarith)

/-- Settles O41: every output of `calibrate` is clean, and each of the four conversions has its range. -/
theorem calibOutputsCleanAndBounded : Obligations.CalibOutputsCleanAndBounded := by
  refine fun s => ⟨_, exec_calib s, calibrate_clean _ _, fun h => ?_, fun h => ?_⟩
  · rw [respond_CI, State.setCI_CI, calibrate_of_not_valid _ h]
    exact ⟨abs_gyroNominal_le _, abs_gyroNominal_le _, abs_gyroNominal_le _,
      abs_accelNominal_le _, abs_accelNominal_le _, abs_accelNominal_le _⟩
  · rw [respond_CI, State.setCI_CI, calibrate, if_pos h]
    exact ⟨abs_gyroCal_le .., abs_gyroCal_le .., abs_gyroCal_le .., abs_accelCal_le .., abs_accelCal_le ..,
      abs_accelCal_le ..⟩

end Sys2Proof.Machine
end

section
/-! PROOFS of the statements about what operations write, read and need (R41, R46, R57, R61, R270):
`OperationsWriteOnlyTheirOutputs`, `OperationsReadOnlyTheirInputs`, `SuppliedOperationsComplete`,
`OperationsStopOnlyOnMissingBytes`, `LaterCommandsSeeEarlierWrites`. -/

namespace Sys2Proof.Machine

/-! ### What operations write -/

/-- R46: no operation writes `RXBUF` or takes an action of the host. -/
theorem Effect.RXBUF_pending {s t : State} {i : Instr} (h : Effect s i t) :
    t.RXBUF = s.RXBUF ∧ t.pending = s.pending := by
  cases h <;> exact ⟨rfl, rfl⟩

/-- R66: no operation writes `TXBUF` at or above index 32. -/
theorem Effect.TXBUF_read_outside {s t : State} {i : Instr} (h : Effect s i t) {a : Nat} (ha : 32 ≤ a) :
    t.TXBUF.read a = s.TXBUF.read a := by
  cases h with
  | encout m hm => rw [respond_TXBUF, State.setTXBUF_TXBUF, hm, read_encoded_outside s.TXBUF s.OS a ha]
  | decinOk | decinError | deccalOk | deccalError | calib | ldout => rfl

/-- Settles O47: in each case of `Effect` one register at most is written, and the decoders write theirs only with
OK. -/
theorem operationsWriteOnlyTheirOutputs : Obligations.OperationsWriteOnlyTheirOutputs := by
  intro i s t hexec
  have h := exec_effect hexec
  obtain ⟨hrx, hpending⟩ := h.RXBUF_pending
  refine ⟨hrx, hpending, ?_, ?_, ?_, ?_, ?_, fun a ha => h.TXBUF_read_outside ha⟩
  all_goals cases h <;> simp

/-! ### What operations read -/

section Below
variable {α : Type} {minLen : Nat} {tag : Byte} {indices : List Nat} {needs : Nat → Bool}
  {fields : (Nat → Byte) → α} {rx rx' : Memory} {len : Nat}

/-- R57: the report decoder answers alike on two spaces that agree below `len`, when the minimum length covers every
index read and the fields depend on no other byte. -/
theorem decodeReport_congr_below (hpos : 0 < minLen) (hlt : ∀ a ∈ indices, needs a = true → a < minLen)
    (hfields : ∀ b b', (∀ a ∈ indices, needs a = true → b a = b' a) → fields b = fields b')
    (hread : ∀ a, a < len → rx.read a = rx'.read a) :
    decodeReport minLen tag indices needs fields rx len = decodeReport minLen tag indices needs fields rx' len := by
  rcases Nat.lt_or_ge len minLen with hshort | hlong
  · rw [decodeReport_short hshort, decodeReport_short hshort]
  · have hneeded : ∀ a ∈ indices, needs a = true → rx.read a = rx'.read a := fun a ha hn =>
      hread a ((hlt a ha hn).trans_le hlong)
    exact decodeReport_congr len (hread 0 (hpos.trans_le hlong)) (fun a ha hn => by rw [hneeded a ha hn])
      (hfields _ _ fun a ha hn => by rw [Memory.bytes, Memory.bytes, hneeded a ha hn])

/-- R57: a byte the report decoder misses lies below `len`. -/
theorem decodeReport_noByte_lt (hpos : 0 < minLen) (hlt : ∀ a ∈ indices, needs a = true → a < minLen) {a : Nat}
    (h : decodeReport minLen tag indices needs fields rx len = .noByte a) : a < len ∧ rx.read a = none := by
  obtain ⟨hlong, hnone, rfl | ⟨-, ha, hn⟩⟩ := decodeReport_noByte h
  · exact ⟨hpos.trans_le hlong, hnone⟩
  · exact ⟨(hlt a ha hn).trans_le hlong, hnone⟩

end Below

section Decoders
variable {tv : TouchVariant} {rx rx' : Memory} {len : Nat}

/-- R57: what DECIN reads after the tag lies below its minimum length. -/
theorem inputOffsets_lt : ∀ a ∈ inputOffsets.map (Config.BASE + ·), inputNeeds tv Config.BASE a = true →
    a < Config.IN_MIN_LEN := fun a ha hn => inputIndicesRead_lt tv a (mem_inputIndicesRead.mpr ⟨ha, hn⟩)

theorem decodeInput_congr_below (hread : ∀ a, a < len → rx.read a = rx'.read a) :
    decodeInput tv rx len = decodeInput tv rx' len :=
  decodeReport_congr_below (by decide) inputOffsets_lt
    (fun _ _ h => inputRecord_congr tv fun a ha => (mem_inputIndicesRead.mp ha).elim (h a)) hread

theorem decodeCal_congr_below (hread : ∀ a, a < len → rx.read a = rx'.read a) :
    decodeCal rx len = decodeCal rx' len :=
  decodeReport_congr_below (by decide) (fun a ha _ => calibrationIndices_lt a ha)
    (fun _ _ h => calibrationRecord_congr fun a ha => h a ha rfl) hread

theorem decodeInput_noByte_lt {a : Nat} (h : decodeInput tv rx len = .noByte a) : a < len ∧ rx.read a = none :=
  decodeReport_noByte_lt (by decide) inputOffsets_lt h

theorem decodeCal_noByte_lt {a : Nat} (h : decodeCal rx len = .noByte a) : a < len ∧ rx.read a = none :=
  decodeReport_noByte_lt (by decide) (fun a ha _ => calibrationIndices_lt a ha) h

end Decoders

/-- Settles O48: each decoder answers alike on both spaces, and the reports of ENCOUT and the results of CALIB are
functions of what they read. -/
theorem operationsReadOnlyTheirInputs : Obligations.OperationsReadOnlyTheirInputs := by
  refine ⟨fun s s' t len hread hexec => ?_, fun s s' t len hread hexec => ?_, fun s s' hOS => ?_,
    fun s s' hraw hCAL => ?_⟩
  · have hsame := decodeInput_congr_below (tv := Config.touchVariant) hread
    obtain ⟨v, hv, rfl⟩ | ⟨st, hst, rfl⟩ := exec_decin_next hexec
    · exact ⟨respond .ok (s'.setIS v), by rw [exec_decin, hsame, hv]; rfl, .ok, rfl, rfl, fun _ => rfl⟩
    · refine ⟨respond st s', by rw [exec_decin, hsame, hst]; rfl, st, rfl, rfl, ?_⟩
      rintro rfl
      simpa using decodeReport_error hst
  · have hsame := decodeCal_congr_below hread
    obtain ⟨v, hv, rfl⟩ | ⟨st, hst, rfl⟩ := exec_deccal_next hexec
    · exact ⟨respond .ok (s'.setCAL v), by rw [exec_deccal, hsame, hv]; rfl, .ok, rfl, rfl, fun _ => rfl⟩
    · refine ⟨respond st s', by rw [exec_deccal, hsame, hst]; rfl, st, rfl, rfl, ?_⟩
      rintro rfl
      simpa using decodeReport_error hst
  · refine ⟨_, _, exec_encout s, exec_encout s', fun a ha => ?_⟩
    simp only [respond_TXBUF, State.setTXBUF_TXBUF]
    rw [read_encoded s'.TXBUF s'.OS a ha, read_encoded s.TXBUF s.OS a ha, hOS]
  · refine ⟨_, _, exec_calib s, exec_calib s', ?_⟩
    rw [respond_CI, respond_CI, State.setCI_CI, State.setCI_CI, hraw, hCAL]

/-! ### What operations need -/

/-- Settles O49: the two decoders answer when their bytes are supplied, the other operations always, and what
answers returned one status. -/
theorem suppliedOperationsComplete : Obligations.SuppliedOperationsComplete := by
  intro i s hsup
  obtain ⟨t, hexec⟩ : ∃ t, exec i s = .next t := by
    cases i with
    | decin len => exact exec_decin_supplied (hsup len (.inl rfl))
    | encout => exact ⟨_, exec_encout s⟩
    | deccal len => exact exec_deccal_supplied (hsup len (.inr rfl))
    | calib => exact ⟨_, exec_calib s⟩
    | ldout a b c d e f g => exact ⟨_, exec_ldout a b c d e f g s⟩
  obtain ⟨st, hst, -⟩ := (exec_effect hexec).exec_statuses []
  exact ⟨t, st, hexec, hst⟩

section Answer
variable {α : Type} {r : Decoded α} {commit : α → State} {s : State}

/-- R110, R170: the answer to a report faults only where a byte is missing. -/
theorem answer_fault {f : Fault} (h : answer r commit s = .fault f) :
    ∃ a, r = .noByte a ∧ f = .rxByteNotSupplied a := by
  cases r with
  | ok v => cases h
  | error st => cases h
  | noByte a => cases h; exact ⟨a, rfl, rfl⟩

theorem answer_ne_refused (x : Refusal) : answer r commit s ≠ .refused x := by
  cases r <;> exact nofun

end Answer

/-- Settles O50: only the answer to a report can fault, and the byte it names is missing below `len`. -/
theorem operationsStopOnlyOnMissingBytes : Obligations.OperationsStopOnlyOnMissingBytes := by
  intro i s
  cases i with
  | decin len =>
    refine ⟨fun f hf => ?_, answer_ne_refused⟩
    obtain ⟨a, ha, rfl⟩ := answer_fault hf
    obtain ⟨hlt, hnone⟩ := decodeInput_noByte_lt ha
    exact ⟨len, a, .inl rfl, hlt, hnone, rfl⟩
  | deccal len =>
    refine ⟨fun f hf => ?_, answer_ne_refused⟩
    obtain ⟨a, ha, rfl⟩ := answer_fault hf
    obtain ⟨hlt, hnone⟩ := decodeCal_noByte_lt ha
    exact ⟨len, a, .inr rfl, hlt, hnone, rfl⟩
  | encout => exact ⟨nofun, nofun⟩
  | calib => exact ⟨nofun, nofun⟩
  | ldout => exact ⟨nofun, nofun⟩

/-! ### What a later command sees -/

/-- Settles O52: CALIB runs at the state DECIN or DECCAL left, and ENCOUT at the state LDOUT left. -/
theorem laterCommandsSeeEarlierWrites : Obligations.LaterCommandsSeeEarlierWrites := by
  refine ⟨fun s len b hacc => ?_, fun s len b hacc => ?_, fun s heavy light r g b on' off => ?_⟩
  · exact ⟨_, _, exec_decin_accepted hacc, exec_calib _, rfl⟩
  · exact ⟨_, _, exec_deccal_accepted hacc, exec_calib _, rfl⟩
  · refine ⟨_, _, exec_ldout heavy light r g b on' off s, exec_encout_next rfl, ?_⟩
    have hread := read_encoded s.TXBUF ⟨heavy, light, r, g, b, on', off⟩
    exact ⟨hread 4 (by decide), hread 5 (by decide), hread 6 (by decide), hread 7 (by decide), hread 8 (by decide),
      hread 9 (by decide), hread 10 (by decide)⟩

end Sys2Proof.Machine
end

section
/-! PROOFS of the statements about every step: the block never stops under a lawful host (R270, R271) and its
invariant (R39, R40, R48, R50, R66): `LawfulHostNeverStopsBlock`, `StepKeepsInvariant`, `PowerOnHasInvariant`. -/

namespace Sys2Proof.Machine

/-! ### Progress -/

/-- R42: a step that answers takes one action of the host, if there is one. -/
theorem step_pending {s t : State} (h : step s = .next t) : t.pending = s.pending.tail := by
  obtain ⟨hp, rfl⟩ | ⟨x, rest, hp, ⟨a, bs, -, -, rfl⟩ | ⟨-, rfl⟩ | ⟨c, i, -, -, he⟩ | ⟨c, op, -, -, rfl⟩⟩ :=
    step_cases h
  · rw [hp]; rfl
  · rw [hp]; rfl
  · rw [hp]; rfl
  · obtain ⟨-, hpending⟩ := he.RXBUF_pending
    rw [hpending, hp]; rfl
  · rw [hp]; rfl

/-- Settles O53: each lawful action is answered with a next state, and a step that answers takes one action. -/
theorem lawfulHostNeverStopsBlock : Obligations.LawfulHostNeverStopsBlock := by
  intro s hlaw
  obtain ⟨t, ht⟩ : ∃ t, step s = .next t := by
    cases hp : s.pending with
    | nil => exact ⟨s, step_nil hp⟩
    | cons x rest =>
      cases x with
      | loadRx a bs => exact ⟨_, step_loadRx_within hp (hlaw _ _ hp)⟩
      | command c => exact step_command_of_lawful hp (hlaw _ _ hp)
      | reset => exact ⟨_, step_cons hp⟩
  exact ⟨t, ht, step_pending ht⟩

/-! ### The invariant, one rule per operation on the state -/

theorem CalibratedIMU.clean_reset : CalibratedIMU.reset.Clean :=
  ⟨clean_zero, clean_zero, clean_zero, clean_zero, clean_zero, clean_zero⟩

section Inv
variable {s : State} (h : s.Inv)
include h

theorem State.Inv.setIS (v : InputState) : (s.setIS v).Inv := ⟨h.rxWf, h.rxBelow, h.txWhole, h.calValid, h.ciClean⟩

theorem State.Inv.setOS (v : OutputState) : (s.setOS v).Inv := ⟨h.rxWf, h.rxBelow, h.txWhole, h.calValid, h.ciClean⟩

theorem State.Inv.setPending (q : List HostAction) : (s.setPending q).Inv :=
  ⟨h.rxWf, h.rxBelow, h.txWhole, h.calValid, h.ciClean⟩

theorem State.Inv.respond (st : Status) : (respond st s).Inv :=
  ⟨h.rxWf, h.rxBelow, h.txWhole, h.calValid, h.ciClean⟩

/-- R48: new calibration data must carry the flag of its own pairs. -/
theorem State.Inv.setCAL {v : CalibrationData} (hv : v.valid = pairsValid v) : (s.setCAL v).Inv :=
  ⟨h.rxWf, h.rxBelow, h.txWhole, hv, h.ciClean⟩

/-- R39: a new `CI` must be clean. -/
theorem State.Inv.setCI {v : CalibratedIMU} (hv : v.Clean) : (s.setCI v).Inv :=
  ⟨h.rxWf, h.rxBelow, h.txWhole, h.calValid, hv⟩

/-- R66: a report written over nothing or over a whole report is one whole report. -/
theorem State.Inv.setTXBUF {m : Memory} {o : OutputState} (hm : m = s.TXBUF.writeBytes 0 (encodeOutput o).toList) :
    (s.setTXBUF m).Inv :=
  ⟨h.rxWf, h.rxBelow, .inr ⟨o, hm.trans (encoded_over h.txWhole o)⟩, h.calValid, h.ciClean⟩

/-- R50: a load within `RX_CAP` supplies no byte beyond it. -/
theorem State.Inv.loadRx {a : Nat} {bs : List Byte} (hle : a + bs.length ≤ Config.rxCap) :
    (s.setRXBUF (s.RXBUF.writeBytes a bs)).Inv := by
  refine ⟨Memory.wf_writeBytes h.rxWf a bs, fun x hx => ?_, h.txWhole, h.calValid, h.ciClean⟩
  rcases Nat.lt_or_ge x Config.rxCap with hlt | hge
  · exact hlt
  · rw [State.setRXBUF_RXBUF, Memory.read_writeBytes_outside _ _ _ _ (.inr (hle.trans hge))] at hx
    exact h.rxBelow x hx

/-- R260: the reset values meet their parts of the invariant. -/
theorem State.Inv.resetBlock : (resetBlock s).Inv :=
  ⟨h.rxWf, h.rxBelow, .inl rfl, rfl, CalibratedIMU.clean_reset⟩

/-- R46: every operation keeps the invariant, by the rule of the register it writes. -/
theorem State.Inv.effect {i : Instr} {t : State} (he : Effect s i t) : t.Inv := by
  cases he with
  | decinOk len v hv => exact (h.setIS v).respond .ok
  | decinError len st hst => exact h.respond st
  | encout m hm => exact (h.setTXBUF hm).respond .ok
  | deccalOk len v hv =>
    obtain ⟨-, -, -, rfl⟩ := decodeReport_ok hv
    exact (h.setCAL (calibrationRecord_valid _)).respond .ok
  | deccalError len st hst => exact h.respond st
  | calib v hv => exact (h.setCI (hv ▸ calibrate_clean _ _)).respond .ok
  | ldout a b c d e f g => exact (h.setOS _).respond .ok

end Inv

/-- Settles O54: each thing a step can do keeps the invariant. -/
theorem stepKeepsInvariant : Obligations.StepKeepsInvariant := by
  intro s t h hstep
  obtain ⟨-, rfl⟩ | ⟨x, rest, -, ⟨a, bs, -, hle, rfl⟩ | ⟨-, rfl⟩ | ⟨c, i, -, -, he⟩ | ⟨c, op, -, -, rfl⟩⟩ :=
    step_cases hstep
  · exact h
  · exact (h.setPending rest).loadRx hle
  · exact (h.setPending rest).resetBlock
  · exact (h.setPending rest).effect he
  · exact (h.setPending rest).respond .illegalOp

/-- Settles O55: nothing is in either buffer, all constants are 0 with the flag at 0, and `CI` is six times +0.0. -/
theorem powerOnHasInvariant : Obligations.PowerOnHasInvariant :=
  ⟨Memory.wf_empty, fun _ h => absurd h Bool.false_ne_true, .inl rfl, rfl, CalibratedIMU.clean_reset⟩

end Sys2Proof.Machine
end
